-- ==== Sys2Proof/Word.lean ====
section
/-!
DEFINITION. The data the block moves: bytes and 16-bit patterns, the two frames, the two store records, the handoff
notification and the event record (spec/00_scope.md R10, R11; spec/10_state.md R24 to R30, R33; spec/30_encoding.md
R81, R85 to R87). Frames and records are structures with named fields, as the spec numbers and names them.
-/

namespace Sys2Proof

/-- A byte, bit 0 least significant (R10). -/
abbrev Byte := BitVec 8

/-- A 16-bit pattern: the intermediate of the axis and switch formulas and the container of the wide fields (R12, R24). -/
abbrev Half := BitVec 16

/-- Which of the two frame shapes an instance decodes (R8 `VARIANT`). -/
inductive Variant where
  | rc
  | companion
  deriving DecidableEq, Repr

/-- A remote-control frame: exactly 18 bytes, `b i` the byte at index `i` (R21, R80, R81). -/
structure RcFrame where
  b0 : Byte
  b1 : Byte
  b2 : Byte
  b3 : Byte
  b4 : Byte
  b5 : Byte
  b6 : Byte
  b7 : Byte
  b8 : Byte
  b9 : Byte
  b10 : Byte
  b11 : Byte
  b12 : Byte
  b13 : Byte
  b14 : Byte
  b15 : Byte
  b16 : Byte
  b17 : Byte
  deriving DecidableEq, Repr

/-- A companion frame: exactly 8 bytes (R80, R85). -/
structure CpFrame where
  b0 : Byte
  b1 : Byte
  b2 : Byte
  b3 : Byte
  b4 : Byte
  b5 : Byte
  b6 : Byte
  b7 : Byte
  deriving DecidableEq, Repr

/-- `ChannelState`, the store record of the remote-control variant, with R24's short names and container widths.
The mouse fields are 16-bit two's-complement patterns, their integer is `toInt`. -/
structure ChannelState where
  rh : Half
  rv : Half
  lh : Half
  lv : Half
  sl : BitVec 2
  sr : BitVec 2
  mx : Half
  my : Half
  mz : Half
  ml : Byte
  mr : Byte
  kb : Half
  deriving DecidableEq, Repr

/-- `CompanionByte`, the store record of the companion variant: one signed byte, its integer is `val.toInt` (R30). -/
structure CompanionByte where
  val : Byte
  deriving DecidableEq, Repr

/-- The store record, a `ChannelState` or a `CompanionByte` by the instance's variant (R20, R24, R30). -/
inductive Record where
  | rc (channels : ChannelState)
  | companion (byte : CompanionByte)
  deriving DecidableEq, Repr

/-- The variant a record belongs to. -/
def Record.variant : Record → Variant
  | .rc _ => .rc
  | .companion _ => .companion

/-- `HandoffNotification`, the pair `(tid, len)` of naturals; it carries no payload byte (R33, R86). -/
structure Notification where
  tid : Nat
  len : Nat
  deriving DecidableEq, Repr

/-- The complete taxonomy of conditions (R180). -/
inductive Condition where
  | queueOverflow
  | lengthMismatch
  deriving DecidableEq, Repr

/-- The number in an event's `code` field (R87, R183): the spec's own numbering. -/
def Condition.code : Condition → Nat
  | .queueOverflow => 1
  | .lengthMismatch => 2

/-- `EVENT`, the record appended to the sink, `(code, tid, len)` (R87). -/
structure EventRecord where
  condition : Condition
  tid : Nat
  len : Nat
  deriving DecidableEq, Repr

/-- The result of a whole-frame decode: a record, or the rejection of a wrong length (R123, R141). -/
inductive Decoded where
  | ok (record : Record)
  | lengthMismatch
  deriving DecidableEq, Repr

/-- The request `(tid, offset, maxLength)` of port `tr_req` (R56, R88). -/
structure TransportRequest where
  tid : Nat
  offset : Nat
  maxLength : Nat
  deriving DecidableEq, Repr

/-- The value one field extraction yields, at the field's container width (R24, R30). -/
inductive FieldValue where
  | rh (v : Half)
  | rv (v : Half)
  | lh (v : Half)
  | lv (v : Half)
  | sl (v : BitVec 2)
  | sr (v : BitVec 2)
  | mx (v : Half)
  | my (v : Half)
  | mz (v : Half)
  | ml (v : Byte)
  | mr (v : Byte)
  | kb (v : Half)
  | val (v : Byte)
  deriving DecidableEq, Repr

end Sys2Proof
end

