-- ==== Sys2Proof/Config.lean ====
section
/-!
DEFINITION. What is fixed for one instance and what the spec leaves free: the constants and the parameter list of
spec/00_scope.md R8, and the free values that stand for "unspecified" and for the transport's answers.
-/

namespace Sys2Proof.Config

/-- `FRAME_LEN(VARIANT)` (R8, R80). -/
def frameLen : Variant → Nat
  | .rc => 18
  | .companion => 8

/-- `AXIS_MASK` (R8). -/
def axisMask : Half := 0x07FF#16

/-- How a frame byte is widened to the 16-bit intermediate (R8 `BYTE_WIDENING`, R12). The value this hardware takes is
`Sys2Proof.Machine.byteWidening`; the other one exists so that the difference can be stated (R127). -/
inductive Widening where
  | signed
  | unsigned
  deriving DecidableEq, Repr

/-- The OPEN parameters of one instance that a rule reads, and the instance's transport (R8). -/
structure Params where
  /-- `VARIANT`, fixed per instance. -/
  variant : Variant
  /-- `QDEPTH`, at least 1. -/
  qdepth : Nat
  /-- `SCRATCH_CAP`, at least `FRAME_LEN(VARIANT)`. -/
  scratchCap : Nat
  /-- `RESET_RECORD`, a record of the instance's variant. -/
  resetRecord : Record
  /-- `HAS_CANCEL`. -/
  hasCancel : Bool
  /-- `MY_TID`, the transport this instance is registered on; no rule compares against it (D29). It
  only keeps the free values of two instances apart. -/
  myTid : Nat
  deriving DecidableEq, Repr

/-- The decided default of `RESET_RECORD` for a remote-control instance: axes at centre, the rest zero (R40, D9). -/
def defaultChannels : ChannelState :=
  { rh := 1024#16, rv := 1024#16, lh := 1024#16, lv := 1024#16, sl := 0#2, sr := 0#2,
    mx := 0#16, my := 0#16, mz := 0#16, ml := 0#8, mr := 0#8, kb := 0#16 }

/-- The decided default of `RESET_RECORD` for either variant (R40, D9). -/
def defaultRecord : Variant → Record
  | .rc => .rc defaultChannels
  | .companion => .companion { val := 0#8 }

/-- The parameters of the remote-control instance whose reset state is `State.reset`. DESIGN CHOICE, unsafe
(notes/assumptions/8.md): the spec leaves QDEPTH and SCRATCH_CAP open; statements quantify over the parameters. -/
def Params.remote : Params :=
  { variant := .rc, qdepth := 4, scratchCap := 18, resetRecord := defaultRecord .rc, hasCancel := false, myTid := 0 }

/-- The parameters of the second instance of the reference system (R193). DESIGN CHOICE, unsafe
(notes/assumptions/8.md). -/
def Params.companionLink : Params :=
  { variant := .companion, qdepth := 4, scratchCap := 18, resetRecord := defaultRecord .companion, hasCancel := false,
    myTid := 1 }

/-- The names of the switch positions (R26). -/
inductive SwitchPosition where
  | up
  | mid
  | down
  deriving DecidableEq, Repr

/-- `SWITCH_CODE`, the OPEN map from position names to codes (R8, R26, D8). It has no body and no rule uses it. -/
opaque switchCode : SwitchPosition → BitVec 2

/-- A free natural: the `k`-th one of draw `d` of the instance on transport `tid`. It stands for what R40 and R210 call unspecified (`cur`, `scratch_len`)
and for the number of bytes a transport answers (R55). DESIGN CHOICE, safe (notes/assumptions/7.md). -/
opaque freeNat : (tid d k : Nat) → Nat

/-- A free byte: the one at index `i` of draw `d` of the instance on transport `tid`. It stands for unspecified scratch bytes (R40, R210) and for the bytes
a transport answers (R55). DESIGN CHOICE, safe (notes/assumptions/7.md). -/
opaque freeByte : (tid d i : Nat) → Byte

end Sys2Proof.Config
end

