-- ==== Sys2Proof/Syntax.lean ====
section
/-!
DEFINITION. The operations of the block: one constructor of `Instr` per row of spec/opcode_table.json (spec/30_encoding.md
R89), and the port events that carry them. The block has no opcode bits: an operation is selected by where it arrives
(R89), so an event pairs that selection with what the port carries (R80, R88).
-/

namespace Sys2Proof

/-- What selects an operation (R89): one name per row of the operation map. -/
inductive Op where
  | rcRh
  | rcRv
  | rcLh
  | rcLv
  | rcSl
  | rcSr
  | rcMx
  | rcMy
  | rcMz
  | rcMl
  | rcMr
  | rcKb
  | rcDecode
  | cpVal
  | cpDecode
  | qPush
  | wPop
  | wRead
  | wDecode
  | sPublish
  | sSnapshot
  | wCancel
  | reset
  deriving DecidableEq, Repr

/-- The mnemonic of an operation in R89. -/
def Op.mnemonic : Op → String
  | .rcRh => "RC.RH"
  | .rcRv => "RC.RV"
  | .rcLh => "RC.LH"
  | .rcLv => "RC.LV"
  | .rcSl => "RC.SL"
  | .rcSr => "RC.SR"
  | .rcMx => "RC.MX"
  | .rcMy => "RC.MY"
  | .rcMz => "RC.MZ"
  | .rcMl => "RC.ML"
  | .rcMr => "RC.MR"
  | .rcKb => "RC.KB"
  | .rcDecode => "RC.DECODE"
  | .cpVal => "CP.VAL"
  | .cpDecode => "CP.DECODE"
  | .qPush => "Q.PUSH"
  | .wPop => "W.POP"
  | .wRead => "W.READ"
  | .wDecode => "W.DECODE"
  | .sPublish => "S.PUBLISH"
  | .sSnapshot => "S.SNAPSHOT"
  | .wCancel => "W.CANCEL"
  | .reset => "RESET"

/-- What a port carries (the "carries" column of R88). -/
inductive Payload where
  /-- a strobe with nothing beside it -/
  | strobe
  /-- a byte list: frame bytes (formats RC18, COMP8) or the transport's answer (`tr_rsp`) -/
  | bytes (b : List Byte)
  /-- a `NOTE`, the pair `(tid, len)` (R86) -/
  | note (n : Notification)
  /-- a whole store record -/
  | record (r : Record)
  /-- a level, as on port `cancel` -/
  | level (high : Bool)
  deriving DecidableEq, Repr

/-- One event at the block's ports: the selection and what is carried. A list of these is a scenario (R7, R93). -/
structure PortEvent where
  op : Op
  payload : Payload
  deriving DecidableEq, Repr

/-- The operations (R89), each with the operands its rule names. -/
inductive Instr where
  /-- `RC.RH`, rightHorizontal (R111) -/
  | rcRh (f : RcFrame)
  /-- `RC.RV`, rightVertical (R112) -/
  | rcRv (f : RcFrame)
  /-- `RC.LH`, leftHorizontal (R113) -/
  | rcLh (f : RcFrame)
  /-- `RC.LV`, leftVertical (R114) -/
  | rcLv (f : RcFrame)
  /-- `RC.SL`, leftSwitch (R115) -/
  | rcSl (f : RcFrame)
  /-- `RC.SR`, rightSwitch (R116) -/
  | rcSr (f : RcFrame)
  /-- `RC.MX`, mouseX (R117) -/
  | rcMx (f : RcFrame)
  /-- `RC.MY`, mouseY (R118) -/
  | rcMy (f : RcFrame)
  /-- `RC.MZ`, mouseZ (R119) -/
  | rcMz (f : RcFrame)
  /-- `RC.ML`, mousePressLeft (R120) -/
  | rcMl (f : RcFrame)
  /-- `RC.MR`, mousePressRight (R121) -/
  | rcMr (f : RcFrame)
  /-- `RC.KB`, keyBits (R122) -/
  | rcKb (f : RcFrame)
  /-- `RC.DECODE` (R123): `b` holds the `L` bytes of the RawFrame, so `L` is `b.length` (R21) -/
  | rcDecode (b : List Byte)
  /-- `CP.VAL` (R140) -/
  | cpVal (f : CpFrame)
  /-- `CP.DECODE` (R141): `b` holds the `L` bytes of the RawFrame -/
  | cpDecode (b : List Byte)
  /-- `Q.PUSH (tid, len)` (R151) -/
  | qPush (n : Notification)
  /-- `W.POP` (R152) -/
  | wPop
  /-- `W.READ` (R153), with what the transport offers as its answer (R55, R93) -/
  | wRead (answer : List Byte)
  /-- `W.DECODE` (R154) -/
  | wDecode
  /-- `S.PUBLISH (rec)` (R155) -/
  | sPublish (r : Record)
  /-- `S.SNAPSHOT` (R156) -/
  | sSnapshot
  /-- `W.CANCEL` (R157), with the level of the `cancel` input -/
  | wCancel (cancel : Bool)
  /-- `RESET` (R210) -/
  | reset
  deriving DecidableEq, Repr

/-- The row of the operation map an instruction belongs to. -/
def Instr.op : Instr → Op
  | .rcRh _ => .rcRh
  | .rcRv _ => .rcRv
  | .rcLh _ => .rcLh
  | .rcLv _ => .rcLv
  | .rcSl _ => .rcSl
  | .rcSr _ => .rcSr
  | .rcMx _ => .rcMx
  | .rcMy _ => .rcMy
  | .rcMz _ => .rcMz
  | .rcMl _ => .rcMl
  | .rcMr _ => .rcMr
  | .rcKb _ => .rcKb
  | .rcDecode _ => .rcDecode
  | .cpVal _ => .cpVal
  | .cpDecode _ => .cpDecode
  | .qPush _ => .qPush
  | .wPop => .wPop
  | .wRead _ => .wRead
  | .wDecode => .wDecode
  | .sPublish _ => .sPublish
  | .sSnapshot => .sSnapshot
  | .wCancel _ => .wCancel
  | .reset => .reset

end Sys2Proof
end

