-- ==== Sys2Proof/WellFormed.lean ====
section
/-!
DEFINITION. What the spec requires of a decoded record and of an instance's parameters beyond their types, and which
instructions an instance of a variant has: the value sets of spec/10_state.md R24 and R25, the bounds of
spec/00_scope.md R8, the selection of spec/30_encoding.md R89.
-/

namespace Sys2Proof

/-- An axis value: 0 .. 2047, bits 15:11 of the container zero (R24, R25). -/
def axisWf (v : Half) : Bool := v.toNat < 2048

/-- A keyboard value: 0 .. 255, bits 15:8 of the container zero (R24, R29). -/
def keyWf (v : Half) : Bool := v.toNat < 256

/-- The four axes lie in R25's range. -/
def ChannelState.axesWf (c : ChannelState) : Bool := axisWf c.rh && axisWf c.rv && axisWf c.lh && axisWf c.lv

/-- The four axes of a record, if it has them, lie in R25's range (R41). -/
def Record.axesWf : Record → Bool
  | .rc c => c.axesWf
  | .companion _ => true

/-- The keyboard field of a record, if it has one, lies in R29's range (R41). -/
def Record.keyboardWf : Record → Bool
  | .rc c => keyWf c.kb
  | .companion _ => true

/-- The value set of a record after any decode (R24, R30). The store may hold a record outside it: one of RESET_RECORD,
whose fields R41 does not bound. -/
def Record.wf (r : Record) : Bool := r.axesWf && r.keyboardWf

/-- R8's bounds on the parameters of an instance: at least one queue slot and a scratch buffer that holds a frame; and
the reset record is one of the instance's variant (DEDUCED from R20, R24, R30, notes/assumptions/9.md). The values of its
fields are not bounded (R8: OPEN). -/
def Config.Params.wf (p : Config.Params) : Bool :=
  decide (1 ≤ p.qdepth) && decide (Config.frameLen p.variant ≤ p.scratchCap) &&
    decide (p.resetRecord.variant = p.variant)

/-- The instructions of an instance with variant `v`: the remote-control frame operations are selected by
`VARIANT = RC`, the companion ones by `VARIANT = COMPANION` (R89), a published record is one of the instance's variant
(R155), every other operation belongs to both. -/
def Instr.wf (v : Variant) : Instr → Bool
  | .rcRh _ => v = .rc
  | .rcRv _ => v = .rc
  | .rcLh _ => v = .rc
  | .rcLv _ => v = .rc
  | .rcSl _ => v = .rc
  | .rcSr _ => v = .rc
  | .rcMx _ => v = .rc
  | .rcMy _ => v = .rc
  | .rcMz _ => v = .rc
  | .rcMl _ => v = .rc
  | .rcMr _ => v = .rc
  | .rcKb _ => v = .rc
  | .rcDecode _ => v = .rc
  | .cpVal _ => v = .companion
  | .cpDecode _ => v = .companion
  | .qPush _ => true
  | .wPop => true
  | .wRead _ => true
  | .wDecode => true
  | .sPublish r => r.variant = v
  | .sSnapshot => true
  | .wCancel _ => true
  | .reset => true

end Sys2Proof
end

