-- ==== Sys2Proof/Decode.lean ====
section
/-!
DEFINITION. The decoder and the encoder. The block decodes no instruction bits (spec/30_encoding.md, opening): an
operation is selected by where it arrives (R89), so the decoder reads a port event and checks that the port carries
what the operation's format says (R80, R88). Byte order is that of spec/20_memory.md R52 and R53.
-/

namespace Sys2Proof

/-- The `n` bytes of a frame integer `F`, byte 0 first: byte `i` is bits `8*i+7 .. 8*i` of `F` (R53). -/
def frameBytes : (n w : Nat) → List Byte
  | 0, _ => []
  | n + 1, w => BitVec.ofNat 8 w :: frameBytes n (w / 256)

/-- The frame integer `F = sum of b[i] * 2^(8*i)` (R53). -/
def frameInteger : List Byte → Nat
  | [] => 0
  | b :: rest => b.toNat + 256 * frameInteger rest

/-- The bytes of a remote-control frame, byte 0 first (R81). -/
def RcFrame.toBytes (f : RcFrame) : List Byte :=
  [f.b0, f.b1, f.b2, f.b3, f.b4, f.b5, f.b6, f.b7, f.b8, f.b9, f.b10, f.b11, f.b12, f.b13, f.b14, f.b15, f.b16, f.b17]

/-- A byte list as a remote-control frame: only a list of exactly 18 bytes is one (R80). -/
def RcFrame.ofBytes : List Byte → Option RcFrame
  | [b0, b1, b2, b3, b4, b5, b6, b7, b8, b9, b10, b11, b12, b13, b14, b15, b16, b17] =>
    some ⟨b0, b1, b2, b3, b4, b5, b6, b7, b8, b9, b10, b11, b12, b13, b14, b15, b16, b17⟩
  | _ => none

/-- The bytes of a companion frame, byte 0 first (R85). -/
def CpFrame.toBytes (f : CpFrame) : List Byte := [f.b0, f.b1, f.b2, f.b3, f.b4, f.b5, f.b6, f.b7]

/-- A byte list as a companion frame: only a list of exactly 8 bytes is one (R80). -/
def CpFrame.ofBytes : List Byte → Option CpFrame
  | [b0, b1, b2, b3, b4, b5, b6, b7] => some ⟨b0, b1, b2, b3, b4, b5, b6, b7⟩
  | _ => none

/-- `NOTE` as one word: `len` in the low `lenW` bits, `tid` above it (R86). The state holds the pair; this is the
packing a realisation with widths `TID_W` and `LEN_W` stores. -/
def Notification.pack (lenW : Nat) (n : Notification) : Nat := n.tid * 2 ^ lenW + n.len

/-- The pair a packed `NOTE` word holds (R86). -/
def Notification.unpack (lenW w : Nat) : Notification := { tid := w / 2 ^ lenW, len := w % 2 ^ lenW }

/-- Why a port event carries no operation of the block. -/
inductive DecodeError where
  /-- a field extraction of format RC18 whose byte list is not 18 bytes long (R21, R80) -/
  | rc18Length (n : Nat)
  /-- a field extraction of format COMP8 whose byte list is not 8 bytes long (R21, R80) -/
  | comp8Length (n : Nat)
  /-- the port of this operation does not carry that kind of payload (R88) -/
  | wrongPayload (op : Op)
  deriving DecidableEq, Repr

/-- An operation of format RC18 on a whole frame. -/
def decodeRc18 (e : PortEvent) (mk : RcFrame → Instr) : Except DecodeError Instr :=
  match e.payload with
  | .bytes b =>
    match RcFrame.ofBytes b with
    | some f => .ok (mk f)
    | none => .error (.rc18Length b.length)
  | _ => .error (.wrongPayload e.op)

/-- An operation of format COMP8 on a whole frame. -/
def decodeComp8 (e : PortEvent) (mk : CpFrame → Instr) : Except DecodeError Instr :=
  match e.payload with
  | .bytes b =>
    match CpFrame.ofBytes b with
    | some f => .ok (mk f)
    | none => .error (.comp8Length b.length)
  | _ => .error (.wrongPayload e.op)

/-- An operation that takes a byte list of any length: a whole-frame decode (its length check is part of its meaning,
R91, R123, R141) or a transport answer (R55). -/
def decodeBytes (e : PortEvent) (mk : List Byte → Instr) : Except DecodeError Instr :=
  match e.payload with
  | .bytes b => .ok (mk b)
  | _ => .error (.wrongPayload e.op)

/-- An operation that carries nothing. -/
def decodeStrobe (e : PortEvent) (i : Instr) : Except DecodeError Instr :=
  match e.payload with
  | .strobe => .ok i
  | _ => .error (.wrongPayload e.op)

/-- The operation a port event carries, or the reason it carries none (R80, R88, R89). -/
def decode (e : PortEvent) : Except DecodeError Instr :=
  match e.op with
  | .rcRh => decodeRc18 e .rcRh
  | .rcRv => decodeRc18 e .rcRv
  | .rcLh => decodeRc18 e .rcLh
  | .rcLv => decodeRc18 e .rcLv
  | .rcSl => decodeRc18 e .rcSl
  | .rcSr => decodeRc18 e .rcSr
  | .rcMx => decodeRc18 e .rcMx
  | .rcMy => decodeRc18 e .rcMy
  | .rcMz => decodeRc18 e .rcMz
  | .rcMl => decodeRc18 e .rcMl
  | .rcMr => decodeRc18 e .rcMr
  | .rcKb => decodeRc18 e .rcKb
  | .rcDecode => decodeBytes e .rcDecode
  | .cpVal => decodeComp8 e .cpVal
  | .cpDecode => decodeBytes e .cpDecode
  | .qPush =>
    match e.payload with
    | .note n => .ok (.qPush n)
    | _ => .error (.wrongPayload .qPush)
  | .wPop => decodeStrobe e .wPop
  | .wRead => decodeBytes e .wRead
  | .wDecode => decodeStrobe e .wDecode
  | .sPublish =>
    match e.payload with
    | .record r => .ok (.sPublish r)
    | _ => .error (.wrongPayload .sPublish)
  | .sSnapshot => decodeStrobe e .sSnapshot
  | .wCancel =>
    match e.payload with
    | .level high => .ok (.wCancel high)
    | _ => .error (.wrongPayload .wCancel)
  | .reset => decodeStrobe e .reset

/-- What the port of an instruction carries (R88). -/
def Instr.payload : Instr → Payload
  | .rcRh f => .bytes f.toBytes
  | .rcRv f => .bytes f.toBytes
  | .rcLh f => .bytes f.toBytes
  | .rcLv f => .bytes f.toBytes
  | .rcSl f => .bytes f.toBytes
  | .rcSr f => .bytes f.toBytes
  | .rcMx f => .bytes f.toBytes
  | .rcMy f => .bytes f.toBytes
  | .rcMz f => .bytes f.toBytes
  | .rcMl f => .bytes f.toBytes
  | .rcMr f => .bytes f.toBytes
  | .rcKb f => .bytes f.toBytes
  | .rcDecode b => .bytes b
  | .cpVal f => .bytes f.toBytes
  | .cpDecode b => .bytes b
  | .qPush n => .note n
  | .wPop => .strobe
  | .wRead answer => .bytes answer
  | .wDecode => .strobe
  | .sPublish r => .record r
  | .sSnapshot => .strobe
  | .wCancel cancel => .level cancel
  | .reset => .strobe

/-- The port event of an instruction. -/
def encode (i : Instr) : PortEvent := { op := i.op, payload := i.payload }

/-- The port event that a table word of `nbits` bits `w` stands for. The opcode table's bits are bits of a frame integer
`F` and select nothing (R92: "match" is 0 and "carries no meaning because nothing selects a field by bit pattern"), so
the word is read as the frame it is: 64 bits are a companion frame (R85), any other number of bits a remote-control
frame, its bits above `nbits` zero (R82, R90), given to that format's frame decoder. A row without bits (format PORT)
gives no frame, and the event of a frame decoder with nothing to decode carries no operation.
DESIGN CHOICE, safe (notes/assumptions/15.md). -/
def tableEvent (nbits w : Nat) : PortEvent :=
  if nbits = 0 then { op := .rcDecode, payload := .strobe }
  else if nbits = 64 then { op := .cpDecode, payload := .bytes (frameBytes 8 w) }
  else { op := .rcDecode, payload := .bytes (frameBytes (max 18 ((nbits + 7) / 8)) w) }

/-- The variant of the instance whose frame decoder a table word is given to (R89; see `tableEvent`). -/
def tableVariant (nbits : Nat) : Variant := if nbits = 64 then .companion else .rc

/-- The instruction the decoder reads from a table word (see `tableEvent`). -/
def decodeTableWord (nbits w : Nat) : Option Instr :=
  match decode (tableEvent nbits w) with
  | .ok i => some i
  | .error _ => none

end Sys2Proof
end

