-- ==== Sys2Proof/Machine/State.lean ====
section
/-!
DEFINITION. The state of one pipeline instance (spec/10_state.md R20), the reasons a step can stop, and the state after
reset (spec/10_state.md R40, spec/70_reset_and_hazards.md R210).
-/

namespace Sys2Proof.Machine

/-- Worker phase `wphase`, the block's only sequencing state (R34). -/
inductive WPhase where
  /-- `W_WAIT`: waits for the next notification -/
  | wait
  /-- `W_READ`: a notification is in hand, the transport not yet read -/
  | read
  /-- `W_DECODE`: the scratch buffer holds the bytes read, not yet decoded -/
  | decode
  /-- `W_HALT`: cancellation observed -/
  | halt
  deriving DecidableEq, Repr

/-- Byte storage: (index, byte) pairs, indices strictly rising, no entry equal to `Memory.unlisted`. It holds the
`SCRATCH` space of R50 and R51. -/
abbrev Memory := List Host.Cell

/-- What an index with no entry reads as. DESIGN CHOICE, unsafe (notes/assumptions/10.md): the spec leaves the contents of
the scratch buffer after reset unspecified (R40). -/
def Memory.unlisted : Byte := 0#8

/-- The canonical form: indices strictly rising, no entry equal to what an unlisted index reads as. -/
abbrev Memory.wf (m : Memory) : Prop :=
  m.Pairwise (fun c d => c.1 < d.1) ∧ ∀ c ∈ m, c.2 ≠ Memory.unlisted

/-- Every entry lies below `cap`: the extent of the space (R50: `SCRATCH_CAP` bytes, index 0 upward). -/
abbrev Memory.within (cap : Nat) (m : Memory) : Prop := ∀ c ∈ m, c.1 < cap

/-- What the output ports of R88 carried in the latest step that happened, and the values of the pure operations; `none`
where a port carried nothing in that step. The model's own field, read by no rule. DESIGN CHOICE, safe
(notes/assumptions/5.md). -/
structure Outputs where
  /-- `push_ok`, valid in the step of the strobe (R88, R151) -/
  pushOk : Option Bool := none
  /-- `tr_req` (R56, R88) -/
  trReq : Option TransportRequest := none
  /-- `snap_out` (R88, R156) -/
  snapOut : Option Record := none
  /-- `sink_out` (R88, R188) -/
  sinkOut : Option EventRecord := none
  /-- the result of a field extraction (R110: "The result of each extraction is a value") -/
  field : Option FieldValue := none
  /-- the result of a whole-frame decode (R123, R141) -/
  decoded : Option Decoded := none
  deriving DecidableEq, Repr

/-- One pipeline instance: its parameters, the state of R20, and the model's own fields. -/
structure State where
  /-- the parameters of the instance, fixed (R8); a constant of the run, not state (R16, notes/assumptions/1.md) -/
  params : Config.Params
  /-- `Q`, oldest first (R32) -/
  queue : List Notification
  /-- `wphase` (R34) -/
  wphase : WPhase
  /-- `cur`, the notification in hand (R35) -/
  cur : Notification
  /-- `scratch` (R22) -/
  scratch : Memory
  /-- `scratch_len` (R23) -/
  scratchLen : Nat
  /-- `cs`, the published store record (R24, R30, R31) -/
  cs : Record
  /-- `sink`, the log of event records, oldest first (R37) -/
  sink : List EventRecord
  /-- the model's own: the ports in the latest step (notes/assumptions/5.md) -/
  out : Outputs
  /-- the model's own: the port events to come, the schedule of R150 (notes/assumptions/2.md) -/
  script : List PortEvent
  /-- the model's own: how many draws of free values have been taken (notes/assumptions/7.md) -/
  draws : Nat
  deriving DecidableEq, Repr

/-- `halted`, "equal to (wphase = W_HALT)" (R36): stored once, in `wphase` (notes/assumptions/19.md). -/
def State.halted (s : State) : Bool := s.wphase = .halt

/-- Reasons the machine stops with a fault. The spec has none ("Nothing in this block is treated as fault",
spec/93_implementation_defined.md); this one is unreachable from every state that satisfies the invariant. -/
inductive Fault where
  /-- Raised by `W.DECODE` when `scratch_len` exceeds `SCRATCH_CAP`: the frame would lie outside the scratch buffer, whose
  extent is fixed (R23, R50, R71). Safe (notes/assumptions/24.md). -/
  | scratchExtent
  deriving DecidableEq, Repr

/-- Reasons an event has no meaning. -/
inductive Refusal where
  /-- Raised by the dispatch for an instruction without a meaning; none is left. Safe. -/
  | notModelled (mnemonic : String)
  /-- Raised by `step` for a port event that carries no operation of the block (R88, R89). Safe
  (notes/assumptions/15.md). -/
  | undecodable (e : DecodeError)
  /-- Raised by `S.PUBLISH` for a record that is not of the instance's variant (R155: "a complete record of the instance's
  variant"); no step reaches it. Safe (notes/assumptions/17.md). -/
  | recordVariant (v : Variant)
  deriving DecidableEq, Repr

/-- The state after `RESET` of an instance with parameters `p` (R40, R210). `cur`, `scratch` and `scratch_len` are
unspecified there; the zeros are a DESIGN CHOICE, unsafe (notes/assumptions/6.md). -/
def State.init (p : Config.Params) : State :=
  { params := p, queue := [], wphase := .wait, cur := { tid := 0, len := 0 }, scratch := [], scratchLen := 0,
    cs := p.resetRecord, sink := [], out := {}, script := [], draws := 0 }

/-- The machine right after reset: the remote-control instance (notes/assumptions/8.md). -/
def State.reset : State := State.init Config.Params.remote

end Sys2Proof.Machine
end

