-- ==== Sys2Proof/Machine/Operands.lean ====
section
/-!
DEFINITION. The operand primitives of the field extractions: widening and the shifts on the 16-bit intermediate
(spec/00_scope.md R11, R12; spec/40_decode_rc.md R110, R128).
-/

namespace Sys2Proof.Machine

/-- `BYTE_WIDENING`, the value this hardware takes (R8, R12, R110; notes/assumptions/12.md). -/
def byteWidening : Config.Widening := .signed

/-- `sext_16` of a byte (R11). -/
def sext16 (b : Byte) : Half := b.signExtend 16

/-- `zext_16` of a byte (R11). -/
def zext16 (b : Byte) : Half := b.setWidth 16

/-- `s(i)`: the frame byte widened to the intermediate (R12, R110). -/
def widen : Config.Widening → Byte → Half
  | .signed, b => sext16 b
  | .unsigned, b => zext16 b

/-- `shl16(v, k) = (v * 2^k) mod 2^16`, bits shifted out are lost (R12, R128). -/
def shl16 (v : Half) (k : Nat) : Half := v <<< k

/-- `asr16(v, k)`, the pattern of `floor(signed_16(v) / 2^k)` (R12, R128). -/
def asr16 (v : Half) (k : Nat) : Half := v.sshiftRight k

/-- `lsr16(v, k) = floor(v / 2^k)` on the unsigned pattern (R12). -/
def lsr16 (v : Half) (k : Nat) : Half := v >>> k

/-- A plain little-endian 16-bit pattern, both bytes widened without sign (R117 to R119). -/
def littleEndian16 (low high : Byte) : Half := zext16 low ||| shl16 (zext16 high) 8

end Sys2Proof.Machine
end

