-- ==== Sys2Proof/Machine/Ops.lean ====
section
/-!
DEFINITION. The shared operations on the state: the byte storage (spec/20_memory.md R50, R51), raising a condition
(spec/60_exceptions.md R188), the queue, the scratch buffer, the store and the output ports (spec/10_state.md R22, R23,
R31, R32; spec/30_encoding.md R88). Every meaning is written over these.
-/

namespace Sys2Proof.Machine

/-- One byte of a byte space. -/
def Memory.read : Memory → Nat → Byte
  | [], _ => Memory.unlisted
  | (k, v) :: rest, a => if a = k then v else Memory.read rest a

/-- Write one byte, keeping the canonical form. -/
def Memory.write : Memory → Nat → Byte → Memory
  | [], a, v => if v = Memory.unlisted then [] else [(a, v)]
  | (k, w) :: rest, a, v =>
    if a < k then
      if v = Memory.unlisted then (k, w) :: rest else (a, v) :: (k, w) :: rest
    else if a = k then
      if v = Memory.unlisted then rest else (k, v) :: rest
    else (k, w) :: Memory.write rest a v

/-- Write a byte list to consecutive indices from `a` upward (R51: there is no wider access). -/
def Memory.writeList : Memory → Nat → List Byte → Memory
  | m, _, [] => m
  | m, a, b :: rest => Memory.writeList (Memory.write m a b) (a + 1) rest

/-- `MemRead(SPACE, a, n)` (R13, R51): the bytes at `a`, `a + 1`, ... . -/
def Memory.readList (m : Memory) : (a n : Nat) → List Byte
  | _, 0 => []
  | a, n + 1 => Memory.read m a :: Memory.readList m (a + 1) n

/-- Set what the output ports carry in this step (R88; notes/assumptions/5.md). -/
def State.emit (s : State) (o : Outputs) : State := { s with out := o }

/-- `raise C(info)`: appends one event record to the sink and nothing else, saves nothing, transfers no control (R13,
R188). There is no handler and so no return from one (R189). -/
def State.raise (s : State) (e : EventRecord) : State := { s with sink := s.sink ++ [e] }

/-- `Q <- Q ++ [n]` (R151). -/
def State.enqueue (s : State) (n : Notification) : State := { s with queue := s.queue ++ [n] }

/-- `cur <- head(Q); Q <- tail(Q); wphase <- W_READ` (R152). -/
def State.takeInHand (s : State) (n : Notification) (rest : List Notification) : State :=
  { s with cur := n, queue := rest, wphase := .read }

/-- Set the worker phase, the block's analogue of setting a program counter (R13, R34). -/
def State.setPhase (s : State) (p : WPhase) : State := { s with wphase := p }

/-- Place the bytes read in the scratch buffer from index 0; higher indices keep what they held (R22, R23, R153). -/
def State.fillScratch (s : State) (bytes : List Byte) : State :=
  { s with scratch := Memory.writeList s.scratch 0 bytes, scratchLen := bytes.length }

/-- `S.PUBLISH`: `cs <- rec`, all fields at once (R31, R59, R155). -/
def State.publish (s : State) (r : Record) : State := { s with cs := r }

/-- The state as one of an instance with variant `v`: itself, or, if its instance has the other variant, with that
variant, a scratch buffer that holds its frame, and its default record for `RESET_RECORD` and the store. No rule does
this; only the placing of a table word uses it (notes/assumptions/15.md, 25.md). -/
def State.forVariant (s : State) (v : Variant) : State :=
  if s.params.variant = v then s
  else { s with
    params := { s.params with
      variant := v, scratchCap := max s.params.scratchCap (Config.frameLen v), resetRecord := Config.defaultRecord v },
    cs := Config.defaultRecord v }

/-- Take the first event off the schedule (notes/assumptions/2.md). -/
def State.advance (s : State) (rest : List PortEvent) : State := { s with script := rest }

/-- Count one draw of free values (notes/assumptions/7.md). -/
def State.countDraw (s : State) : State := { s with draws := s.draws + 1 }

/-- The request of the transport read: `offset = 0`, `maxLength = min(cur.len, SCRATCH_CAP)` (R56). -/
def State.transportRequest (s : State) : TransportRequest :=
  { tid := s.cur.tid, offset := 0, maxLength := min s.cur.len s.params.scratchCap }

/-- The bytes the worker's transport read returns: at most `maxLength` of what the transport offers (R55).
DESIGN CHOICE, safe (notes/assumptions/11.md): a longer offer is cut at the bound. -/
def State.bytesRead (s : State) (answer : List Byte) : List Byte := answer.take s.transportRequest.maxLength

/-- The RawFrame in the scratch buffer: its first `scratch_len` bytes (R21, R23), none if they would not lie in the
buffer (R50). -/
def State.scratchFrame (s : State) : Option (List Byte) :=
  if s.scratchLen ≤ s.params.scratchCap then some (Memory.readList s.scratch 0 s.scratchLen) else none

/-- The unspecified notification that `RESET` leaves in hand (R40, R210). -/
def freeNotification (tid d : Nat) : Notification := { tid := Config.freeNat tid d 0, len := Config.freeNat tid d 1 }

/-- `n` free bytes of draw `d` of the instance on transport `tid`, from index `i` upward. -/
def freeBytes (tid d : Nat) : (i n : Nat) → List Byte
  | _, 0 => []
  | i, n + 1 => Config.freeByte tid d i :: freeBytes tid d (i + 1) n

/-- Everything `RESET` does: `Q`, `wphase`, `sink` and `cs` as R210 says; `cur`, `scratch` and `scratch_len` become free
values, `scratch_len` within its bound (R23, R40; notes/assumptions/7.md). -/
def State.restart (s : State) : State :=
  { s with
    queue := [], wphase := .wait, sink := [], cs := s.params.resetRecord,
    cur := freeNotification s.params.myTid s.draws,
    scratch := Memory.writeList [] 0 (freeBytes s.params.myTid s.draws 0 s.params.scratchCap),
    scratchLen := Config.freeNat s.params.myTid s.draws 2 % (s.params.scratchCap + 1),
    draws := s.draws + 1 }

end Sys2Proof.Machine
end

