-- ==== Sys2Proof/Machine/Flags.lean ====
section
/-!
DEFINITION. The block has no status flags and no condition codes, and no operation writes one (spec/10_state.md R38).
What stands here instead are the boolean views of the state and of stored values that the spec's rules use; none of them
is stored.
-/

namespace Sys2Proof.Machine

/-- The boolean view of a button byte, `pressed(x) = (x != 0)`; it is not stored (R28). -/
def pressed (x : Byte) : Bool := x ≠ 0#8

/-- A push is accepted exactly when `len(Q) < QDEPTH` (R151, R162). -/
def State.hasRoom (s : State) : Bool := s.queue.length < s.params.qdepth

/-- `W.POP` is enabled: `wphase = W_WAIT` and `len(Q) > 0` (R152). -/
def State.popEnabled (s : State) : Bool := s.wphase = .wait && !s.queue.isEmpty

/-- `W.READ` is enabled: `wphase = W_READ` (R153). -/
def State.readEnabled (s : State) : Bool := s.wphase = .read

/-- `W.DECODE` is enabled: `wphase = W_DECODE` (R154). -/
def State.decodeEnabled (s : State) : Bool := s.wphase = .decode

/-- `W.CANCEL` is enabled: `HAS_CANCEL` and `cancel` is high and `wphase = W_WAIT` (R157). -/
def State.cancelEnabled (s : State) (cancel : Bool) : Bool := s.params.hasCancel && cancel && s.wphase = .wait

/-- Quiescent: `Q` is empty and the worker is in `W_WAIT`, or it is in `W_HALT` with `Q` empty (R224). -/
def State.quiescent (s : State) : Bool := s.queue.isEmpty && (s.wphase = .wait || s.wphase = .halt)

end Sys2Proof.Machine
end

