-- ==== Sys2Proof/Machine/RcFields.lean ====
section
/-!
DEFINITION. The twelve field extractions of the remote-control frame (spec/40_decode_rc.md R110 to R122). Each value
function takes the widening, so that the unsigned reading can be stated (R127); each meaning uses this hardware's. An
extraction yields a value and writes nothing (R110): its meaning only puts the value on the result port
(notes/assumptions/5.md, 16.md).
-/

namespace Sys2Proof.Machine

/-- `RH = ( s(0) | shl16(s(1), 8) ) & 0x07FF` (R111). -/
def rhValue (w : Config.Widening) (f : RcFrame) : Half :=
  (widen w f.b0 ||| shl16 (widen w f.b1) 8) &&& Config.axisMask

/-- `RV = ( asr16(s(1), 3) | shl16(s(2), 5) ) & 0x07FF` (R112). -/
def rvValue (w : Config.Widening) (f : RcFrame) : Half :=
  (asr16 (widen w f.b1) 3 ||| shl16 (widen w f.b2) 5) &&& Config.axisMask

/-- `LH = ( asr16(s(2), 6) | shl16(s(3), 2) | shl16(s(4), 10) ) & 0x07FF` (R113). -/
def lhValue (w : Config.Widening) (f : RcFrame) : Half :=
  (asr16 (widen w f.b2) 6 ||| shl16 (widen w f.b3) 2 ||| shl16 (widen w f.b4) 10) &&& Config.axisMask

/-- `LV = ( asr16(s(4), 1) | shl16(s(5), 7) ) & 0x07FF` (R114). -/
def lvValue (w : Config.Widening) (f : RcFrame) : Half :=
  (asr16 (widen w f.b4) 1 ||| shl16 (widen w f.b5) 7) &&& Config.axisMask

/-- `SL = lsr16( asr16(s(5), 4) & 0x000C, 2 )` (R115). -/
def slValue (w : Config.Widening) (f : RcFrame) : BitVec 2 :=
  (lsr16 (asr16 (widen w f.b5) 4 &&& 0x000C#16) 2).setWidth 2

/-- `SR = asr16(s(5), 4) & 0x0003` (R116). -/
def srValue (w : Config.Widening) (f : RcFrame) : BitVec 2 :=
  (asr16 (widen w f.b5) 4 &&& 0x0003#16).setWidth 2

/-- `MX = signed_16( zext_16(b[6]) | shl16(zext_16(b[7]), 8) )` (R117). -/
def mxValue (f : RcFrame) : Half :=
  littleEndian16 f.b6 f.b7

/-- `MY = signed_16( zext_16(b[8]) | shl16(zext_16(b[9]), 8) )` (R118). -/
def myValue (f : RcFrame) : Half :=
  littleEndian16 f.b8 f.b9

/-- `MZ = signed_16( zext_16(b[10]) | shl16(zext_16(b[11]), 8) )` (R119). -/
def mzValue (f : RcFrame) : Half :=
  littleEndian16 f.b10 f.b11

/-- `ML = b[12]` (R120). -/
def mlValue (f : RcFrame) : Byte :=
  f.b12

/-- `MR = b[13]` (R121). -/
def mrValue (f : RcFrame) : Byte :=
  f.b13

/-- `KB = zext_16(b[14])` (R122). -/
def kbValue (f : RcFrame) : Half :=
  zext16 f.b14

/-- The record the twelve extractions assemble (R123). -/
def channelState (w : Config.Widening) (f : RcFrame) : ChannelState :=
  { rh := rhValue w f,
    rv := rvValue w f,
    lh := lhValue w f,
    lv := lvValue w f,
    sl := slValue w f,
    sr := srValue w f,
    mx := mxValue f,
    my := myValue f,
    mz := mzValue f,
    ml := mlValue f,
    mr := mrValue f,
    kb := kbValue f }

/-- `RC.RH` (R111). -/
def execRcRh (f : RcFrame) (s : State) : Host.Outcome State Fault Refusal :=
  .next (s.emit { field := some (.rh (rhValue byteWidening f)) })

/-- `RC.RV` (R112). -/
def execRcRv (f : RcFrame) (s : State) : Host.Outcome State Fault Refusal :=
  .next (s.emit { field := some (.rv (rvValue byteWidening f)) })

/-- `RC.LH` (R113). -/
def execRcLh (f : RcFrame) (s : State) : Host.Outcome State Fault Refusal :=
  .next (s.emit { field := some (.lh (lhValue byteWidening f)) })

/-- `RC.LV` (R114). -/
def execRcLv (f : RcFrame) (s : State) : Host.Outcome State Fault Refusal :=
  .next (s.emit { field := some (.lv (lvValue byteWidening f)) })

/-- `RC.SL` (R115). -/
def execRcSl (f : RcFrame) (s : State) : Host.Outcome State Fault Refusal :=
  .next (s.emit { field := some (.sl (slValue byteWidening f)) })

/-- `RC.SR` (R116). -/
def execRcSr (f : RcFrame) (s : State) : Host.Outcome State Fault Refusal :=
  .next (s.emit { field := some (.sr (srValue byteWidening f)) })

/-- `RC.MX` (R117). -/
def execRcMx (f : RcFrame) (s : State) : Host.Outcome State Fault Refusal :=
  .next (s.emit { field := some (.mx (mxValue f)) })

/-- `RC.MY` (R118). -/
def execRcMy (f : RcFrame) (s : State) : Host.Outcome State Fault Refusal :=
  .next (s.emit { field := some (.my (myValue f)) })

/-- `RC.MZ` (R119). -/
def execRcMz (f : RcFrame) (s : State) : Host.Outcome State Fault Refusal :=
  .next (s.emit { field := some (.mz (mzValue f)) })

/-- `RC.ML` (R120). -/
def execRcMl (f : RcFrame) (s : State) : Host.Outcome State Fault Refusal :=
  .next (s.emit { field := some (.ml (mlValue f)) })

/-- `RC.MR` (R121). -/
def execRcMr (f : RcFrame) (s : State) : Host.Outcome State Fault Refusal :=
  .next (s.emit { field := some (.mr (mrValue f)) })

/-- `RC.KB` (R122). -/
def execRcKb (f : RcFrame) (s : State) : Host.Outcome State Fault Refusal :=
  .next (s.emit { field := some (.kb (kbValue f)) })

end Sys2Proof.Machine
end

