-- ==== Sys2Proof/Machine/FrameDecode.lean ====
section
/-!
DEFINITION. The two frame decoders and the companion extraction (spec/40_decode_rc.md R123 to R125;
spec/41_decode_companion.md R140 to R142). The decoders are pure: they depend on the byte list alone, check nothing but
its length, and write no state; their meanings only put the result on the result port (notes/assumptions/5.md, 16.md).
-/

namespace Sys2Proof.Machine

/-- `RC.DECODE(b, L)`: any length but 18 is `Fail(LengthMismatch)`, 18 bytes are a whole record (R123). -/
def rcDecodeFrame (w : Config.Widening) (b : List Byte) : Decoded :=
  match RcFrame.ofBytes b with
  | some f => .ok (.rc (channelState w f))
  | none => .lengthMismatch

/-- `VAL = signed_8(b[2])`: the byte at `COMP_OFFSET` as an 8-bit two's-complement pattern (R140, R8). -/
def valValue (f : CpFrame) : Byte := f.b2

/-- `CP.DECODE(b, L)`: any length but 8 is `Fail(LengthMismatch)` (R141). -/
def cpDecodeFrame (b : List Byte) : Decoded :=
  match CpFrame.ofBytes b with
  | some f => .ok (.companion { val := valValue f })
  | none => .lengthMismatch

/-- The appropriate frame decoder, that of the instance's `VARIANT` (R90, R154). -/
def decodeFrame (v : Variant) (b : List Byte) : Decoded :=
  match v with
  | .rc => rcDecodeFrame byteWidening b
  | .companion => cpDecodeFrame b

/-- The decode of the RawFrame in the scratch buffer (R154). -/
def State.scratchDecoded (s : State) : Option Decoded := s.scratchFrame.map (decodeFrame s.params.variant)

/-- `RC.DECODE` (R123). -/
def execRcDecode (b : List Byte) (s : State) : Host.Outcome State Fault Refusal :=
  .next (s.emit { decoded := some (rcDecodeFrame byteWidening b) })

/-- `CP.VAL` (R140). -/
def execCpVal (f : CpFrame) (s : State) : Host.Outcome State Fault Refusal :=
  .next (s.emit { field := some (.val (valValue f)) })

/-- `CP.DECODE` (R141). -/
def execCpDecode (b : List Byte) (s : State) : Host.Outcome State Fault Refusal :=
  .next (s.emit { decoded := some (cpDecodeFrame b) })

end Sys2Proof.Machine
end

