-- ==== Sys2Proof/Machine/Pipeline.lean ====
section
/-!
DEFINITION. The steps of the receive pipeline (spec/42_pipeline.md R151 to R157). Each step is atomic. "A step that is
not enabled does not happen; it is not an error" (R150): where a worker step is not enabled, its meaning leaves the state
as it is (notes/assumptions/4.md).
-/

namespace Sys2Proof.Machine

/-- `Q.PUSH (tid, len)`: append, or drop the newest and raise `QueueOverflow` (R151, R182). -/
def execQPush (n : Notification) (s : State) : Host.Outcome State Fault Refusal :=
  if s.hasRoom then
    .next ((s.enqueue n).emit { pushOk := some true })
  else
    let e : EventRecord := { condition := .queueOverflow, tid := n.tid, len := n.len }
    .next ((s.raise e).emit { pushOk := some false, sinkOut := some e })

/-- `W.POP`: the oldest notification goes in hand; the worker waits while there is none (R152, R194). -/
def execWPop (s : State) : Host.Outcome State Fault Refusal :=
  match s.wphase, s.queue with
  | .wait, n :: rest => .next ((s.takeInHand n rest).emit {})
  | _, _ => .next s

/-- `W.READ`: one transport read into the scratch buffer (R153, R55, R56). -/
def execWRead (answer : List Byte) (s : State) : Host.Outcome State Fault Refusal :=
  if s.readEnabled then
    .next (((s.fillScratch (s.bytesRead answer)).setPhase .decode).emit { trReq := some s.transportRequest })
  else .next s

/-- The failure arm of `W.DECODE`: the event `(2, cur.tid, scratch_len)` and back to the wait (R154, R181). -/
def State.discardFrame (s : State) : State :=
  let e : EventRecord := { condition := .lengthMismatch, tid := s.cur.tid, len := s.scratchLen }
  ((s.raise e).setPhase .wait).emit { sinkOut := some e }

/-- The success arm of `W.DECODE`: the store record is replaced, and back to the wait (R154, R155). -/
def State.publishFrame (s : State) (r : Record) : State := ((s.publish r).setPhase .wait).emit {}

/-- `W.DECODE`: decode the frame in the scratch buffer, publish it or raise `LengthMismatch` (R154). -/
def execWDecode (s : State) : Host.Outcome State Fault Refusal :=
  if s.decodeEnabled then
    match s.scratchDecoded with
    | some (.ok r) => .next (s.publishFrame r)
    | some .lengthMismatch => .next s.discardFrame
    | none => .fault .scratchExtent
  else .next s

/-- `S.PUBLISH (rec)`: `cs <- rec`, every field, for any record of the instance's variant (R155): the part that
`State.publishFrame` has of `W.DECODE`. -/
def execSPublish (r : Record) (s : State) : Host.Outcome State Fault Refusal :=
  if r.variant = s.params.variant then .next ((s.publish r).emit {}) else .refused (.recordVariant r.variant)

/-- `S.SNAPSHOT`: a copy of the whole record, no state change (R156). -/
def execSSnapshot (s : State) : Host.Outcome State Fault Refusal := .next (s.emit { snapOut := some s.cs })

/-- `W.CANCEL` with the level of the `cancel` input (R157). -/
def execWCancel (cancel : Bool) (s : State) : Host.Outcome State Fault Refusal :=
  if s.cancelEnabled cancel then .next ((s.setPhase .halt).emit {}) else .next s

/-- Which operations can be the next step in a state (R150): they belong to the instance's variant (R89), and the enabling
conditions of R151 to R157 and R210 hold. The pure operations have no further condition (notes/assumptions/16.md).
`S.PUBLISH` "is not a step of its own: it happens inside the atomic `W.DECODE` step" (R155), so it never is the next step
by itself (notes/assumptions/17.md). -/
def enabled (i : Instr) (s : State) : Bool :=
  i.wf s.params.variant &&
    match i with
    | .rcRh _ => true
    | .rcRv _ => true
    | .rcLh _ => true
    | .rcLv _ => true
    | .rcSl _ => true
    | .rcSr _ => true
    | .rcMx _ => true
    | .rcMy _ => true
    | .rcMz _ => true
    | .rcMl _ => true
    | .rcMr _ => true
    | .rcKb _ => true
    | .rcDecode _ => true
    | .cpVal _ => true
    | .cpDecode _ => true
    | .qPush _ => true
    | .wPop => s.popEnabled
    | .wRead _ => s.readEnabled
    | .wDecode => s.decodeEnabled
    | .sPublish _ => false
    | .sSnapshot => true
    | .wCancel cancel => s.cancelEnabled cancel
    | .reset => true

/-- What the transport offers to the worker's own read: a free list of bytes (R55; notes/assumptions/3.md). -/
def freeAnswer (tid d : Nat) : List Byte := freeBytes tid d 0 (Config.freeNat tid d 3)

/-- The worker's own next step where no event is scheduled: wait, read, decode in turn (R94 `run()`, R158), none while it
waits on an empty queue or is halted (R152, R157; notes/assumptions/3.md). -/
def workerAction (s : State) : Option Instr :=
  match s.wphase with
  | .wait => if s.queue.isEmpty then none else some .wPop
  | .read => some (.wRead (freeAnswer s.params.myTid s.draws))
  | .decode => some .wDecode
  | .halt => none

end Sys2Proof.Machine
end

