-- ==== Sys2Proof/Machine/Reset.lean ====
section
/-!
DEFINITION. `RESET` (spec/70_reset_and_hazards.md R210, R211; spec/10_state.md R40).
-/

namespace Sys2Proof.Machine

/-- `RESET`: from any state, the values of R40; what is queued is lost without an event (R210). -/
def execReset (s : State) : Host.Outcome State Fault Refusal := .next (s.restart.emit {})

end Sys2Proof.Machine
end

