-- ==== Sys2Proof/Machine/Dispatch.lean ====
section
/-!
DEFINITION. The dispatch: one arm per operation of spec/30_encoding.md R89.
-/

namespace Sys2Proof.Machine

def exec (i : Instr) (s : State) : Host.Outcome State Fault Refusal :=
  match i with
  | .rcRh f => Sys2Proof.Machine.execRcRh f s
  | .rcRv f => Sys2Proof.Machine.execRcRv f s
  | .rcLh f => Sys2Proof.Machine.execRcLh f s
  | .rcLv f => Sys2Proof.Machine.execRcLv f s
  | .rcSl f => Sys2Proof.Machine.execRcSl f s
  | .rcSr f => Sys2Proof.Machine.execRcSr f s
  | .rcMx f => Sys2Proof.Machine.execRcMx f s
  | .rcMy f => Sys2Proof.Machine.execRcMy f s
  | .rcMz f => Sys2Proof.Machine.execRcMz f s
  | .rcMl f => Sys2Proof.Machine.execRcMl f s
  | .rcMr f => Sys2Proof.Machine.execRcMr f s
  | .rcKb f => Sys2Proof.Machine.execRcKb f s
  | .rcDecode b => Sys2Proof.Machine.execRcDecode b s
  | .cpVal f => Sys2Proof.Machine.execCpVal f s
  | .cpDecode b => Sys2Proof.Machine.execCpDecode b s
  | .qPush n => Sys2Proof.Machine.execQPush n s
  | .wPop => Sys2Proof.Machine.execWPop s
  | .wRead answer => Sys2Proof.Machine.execWRead answer s
  | .wDecode => Sys2Proof.Machine.execWDecode s
  | .sPublish r => Sys2Proof.Machine.execSPublish r s
  | .sSnapshot => Sys2Proof.Machine.execSSnapshot s
  | .wCancel cancel => Sys2Proof.Machine.execWCancel cancel s
  | .reset => Sys2Proof.Machine.execReset s

end Sys2Proof.Machine
end

