-- ==== Sys2Proof/Machine/Step.lean ====
section
/-!
DEFINITION. One step of the machine (spec/42_pipeline.md R150): the next scheduled port event, or, where none is
scheduled, the worker's own next step.
-/

namespace Sys2Proof.Machine

/-- Run one port event. What carries no operation is refused by name; an operation that is not enabled does not happen
(R150). -/
def runEvent (e : PortEvent) (s : State) : Host.Outcome State Fault Refusal :=
  match decode e with
  | .error err => .refused (.undecodable err)
  | .ok i => if enabled i s then exec i s else .next s

/-- The step where no event is scheduled: the worker's own, or none at all, the state staying as it is (R152, R157, R161,
R194; notes/assumptions/3.md). -/
def idleStep (s : State) : Host.Outcome State Fault Refusal :=
  match workerAction s with
  | some i => exec i s.countDraw
  | none => .next s

/-- One step. -/
def step (s : State) : Host.Outcome State Fault Refusal :=
  match s.script with
  | e :: rest => runEvent e (s.advance rest)
  | [] => idleStep s

/-- The state with the event of a table word as the very next event, on an instance whose variant selects that word's
frame decoder (R89; see `tableEvent`; notes/assumptions/15.md, 25.md). -/
def State.withFetchWord (s : State) (nbits w : Nat) : State :=
  (s.forVariant (tableVariant nbits)).advance (tableEvent nbits w :: s.script)

end Sys2Proof.Machine
end

