-- ==== Sys2Proof/Machine/System.lean ====
section
/-!
DEFINITION. The two instances of the reference system (spec/60_exceptions.md R193): "A model of the system is the product
of two models of one instance with steps interleaved freely."
-/

namespace Sys2Proof.Machine

/-- The product of two instances; they share nothing (R193). -/
structure System where
  x : State
  y : State
  deriving DecidableEq, Repr

/-- Which instance takes the next step. -/
inductive Side where
  | x
  | y
  deriving DecidableEq, Repr

/-- One step of one instance; the other stays as it is (R193; notes/assumptions/23.md). -/
def System.step (side : Side) (m : System) : Host.Outcome System Fault Refusal :=
  match side with
  | .x =>
    match Sys2Proof.Machine.step m.x with
    | .next t => .next { m with x := t }
    | .fault r => .fault r
    | .refused r => .refused r
  | .y =>
    match Sys2Proof.Machine.step m.y with
    | .next t => .next { m with y := t }
    | .fault r => .fault r
    | .refused r => .refused r

/-- A list of steps, each of the side named, stopping at the first fault or refusal. -/
def System.run : List Side → System → Host.Outcome System Fault Refusal
  | [], m => .next m
  | side :: rest, m =>
    match System.step side m with
    | .next m' => System.run rest m'
    | .fault r => .fault r
    | .refused r => .refused r

/-- The reference system right after reset: one remote-control and one companion instance (R193, R213). -/
def System.reset : System := { x := State.reset, y := State.init Config.Params.companionLink }

end Sys2Proof.Machine
end

