-- ==== Sys2Proof/Safety.lean ====
section
/-!
DEFINITION. The words claims are stated in: the invariant of spec/10_state.md R41, the contexts of
spec/60_exceptions.md R190 and R191, traces of accepted, popped and published items (spec/42_pipeline.md R159 to R161,
spec/20_memory.md R66), and the readings of the axis formulas at another width (spec/40_decode_rc.md R129).
-/

namespace Sys2Proof.Machine

/-- The invariant of an instance: R41, R23 and R50 over every state, whatever the parameters within R8's bounds. -/
structure StateInv (s : State) : Prop where
  /-- the parameters lie within R8's bounds -/
  params : s.params.wf = true
  /-- `len(Q) <= QDEPTH` (R32, R41) -/
  queue : s.queue.length ≤ s.params.qdepth
  /-- the store record is of the instance's variant (R24, R30) -/
  variant : s.cs.variant = s.params.variant
  /-- the axes lie in 0 .. 2047, provided those of `RESET_RECORD` do (R41) -/
  axes : s.params.resetRecord.axesWf = true → s.cs.axesWf = true
  /-- the keyboard field lies in 0 .. 255, provided that of `RESET_RECORD` does (R41) -/
  keyboard : s.params.resetRecord.keyboardWf = true → s.cs.keyboardWf = true
  /-- the store record is `RESET_RECORD` or the decode of some frame (R41, R60) -/
  published : s.cs = s.params.resetRecord ∨ ∃ b, decodeFrame s.params.variant b = .ok s.cs
  /-- the scratch buffer is in canonical form -/
  canonical : Memory.wf s.scratch
  /-- the scratch buffer has `SCRATCH_CAP` bytes (R50) -/
  extent : Memory.within s.params.scratchCap s.scratch
  /-- `scratch_len` is in `0 .. SCRATCH_CAP` (R23) -/
  scratchLen : s.scratchLen ≤ s.params.scratchCap
  /-- `halted` implies `HAS_CANCEL` (R36, R41) -/
  halt : s.halted = true → s.params.hasCancel = true

/-- A state is safe when no step from it faults. -/
def Safe (s : State) : Prop := ∀ r, step s ≠ .fault r

/-- The execution contexts (R190). -/
inductive Context where
  | completion
  | worker
  | reader
  /-- `RESET` has none (R88) -/
  | none
  deriving DecidableEq, Repr

/-- The context that may execute an operation (R191; the frame decoders are invoked by the worker, R154). -/
def contextOf : Instr → Context
  | .rcRh _ => .worker
  | .rcRv _ => .worker
  | .rcLh _ => .worker
  | .rcLv _ => .worker
  | .rcSl _ => .worker
  | .rcSr _ => .worker
  | .rcMx _ => .worker
  | .rcMy _ => .worker
  | .rcMz _ => .worker
  | .rcMl _ => .worker
  | .rcMr _ => .worker
  | .rcKb _ => .worker
  | .rcDecode _ => .worker
  | .cpVal _ => .worker
  | .cpDecode _ => .worker
  | .qPush _ => .completion
  | .wPop => .worker
  | .wRead _ => .worker
  | .wDecode => .worker
  | .sPublish _ => .worker
  | .sSnapshot => .reader
  | .wCancel _ => .worker
  | .reset => .none

/-- Equal in everything but the output ports and the schedule: what "changes no state" means of the block's state. -/
structure SameState (s t : State) : Prop where
  params : t.params = s.params
  queue : t.queue = s.queue
  wphase : t.wphase = s.wphase
  cur : t.cur = s.cur
  scratch : t.scratch = s.scratch
  scratchLen : t.scratchLen = s.scratchLen
  cs : t.cs = s.cs
  sink : t.sink = s.sink
  script : t.script = s.script
  draws : t.draws = s.draws

/-- Run a list of operations one after another, each where it stands: an operation that is not enabled does not happen
(R150). -/
def runAll : List Instr → State → Host.Outcome State Fault Refusal
  | [], s => .next s
  | i :: rest, s =>
    match (if enabled i s then exec i s else .next s) with
    | .next t => runAll rest t
    | .fault r => .fault r
    | .refused r => .refused r

/-- `k` steps of one instance, stopping at the first fault or refusal. -/
def runSteps : Nat → State → Host.Outcome State Fault Refusal
  | 0, s => .next s
  | k + 1, s =>
    match step s with
    | .next t => runSteps k t
    | .fault r => .fault r
    | .refused r => .refused r

/-- A quantity gathered along the same run: what each operation adds in the state it finds. -/
def gather (one : Instr → State → List α) : List Instr → State → List α
  | [], _ => []
  | i :: rest, s =>
    match (if enabled i s then exec i s else .next s) with
    | .next t => one i s ++ gather one rest t
    | _ => []

/-- The notification an operation gets accepted (R151, R160). -/
def acceptedBy (i : Instr) (s : State) : List Notification :=
  match i with
  | .qPush n => if s.queue.length < s.params.qdepth then [n] else []
  | _ => []

/-- The notification an operation takes out of the queue (R152). -/
def poppedBy (i : Instr) (s : State) : List Notification :=
  match i with
  | .wPop => if s.wphase = .wait then s.queue.take 1 else []
  | _ => []

/-- The record an operation of a run makes the published one: the frame decoded in `W.DECODE` with its part `S.PUBLISH`
(R154, R155), `RESET_RECORD` (R210). -/
def publishedBy (i : Instr) (s : State) : List Record :=
  match i with
  | .wDecode =>
    if s.wphase = .decode then
      match s.scratchDecoded with
      | some (.ok r) => [r]
      | _ => []
    else []
  | .reset => [s.params.resetRecord]
  | _ => []

/-- A quantity gathered along the same `k` steps: what each adds in the state it finds. -/
def gatherSteps (one : State → List α) : Nat → State → List α
  | 0, _ => []
  | k + 1, s =>
    match step s with
    | .next t => one s ++ gatherSteps one k t
    | _ => []

/-- The worker's own step in a state, if nothing is scheduled. -/
def ownAction (s : State) : Option Instr := if s.script.isEmpty then workerAction s else none

/-- The notification the worker's own step pops (R152). -/
def ownPop (s : State) : List Notification :=
  match ownAction s with
  | some .wPop => s.queue.take 1
  | _ => []

/-- The notification on whose account the worker's own step reads the transport (R153). -/
def ownRead (s : State) : List Notification :=
  match ownAction s with
  | some (.wRead _) => [s.cur]
  | _ => []

/-- The notification whose frame the worker's own step decodes (R154). -/
def ownDecode (s : State) : List Notification :=
  match ownAction s with
  | some .wDecode => [s.cur]
  | _ => []

/-- How many steps of its own the worker has left before it waits on an empty queue (R158: pop, read, decode). -/
def workLeft (s : State) : Nat :=
  3 * s.queue.length +
    (match s.wphase with
      | .wait => 0
      | .read => 2
      | .decode => 1
      | .halt => 0)

/-- Two states of instances with the same parameters that nobody can tell apart: they differ at most in what no rule reads
before it is written (R22, R35, R39, R40) and in the model's own schedule and draws. -/
structure Indistinct (s t : State) : Prop where
  params : t.params = s.params
  queue : t.queue = s.queue
  wphase : t.wphase = s.wphase
  cs : t.cs = s.cs
  sink : t.sink = s.sink
  out : t.out = s.out
  /-- `cur` is meaningful only in `W_READ` and `W_DECODE` (R35) -/
  cur : s.wphase = .read ∨ s.wphase = .decode → t.cur = s.cur
  /-- `scratch_len` is meaningful only in `W_DECODE` (R23) -/
  scratchLen : s.wphase = .decode → t.scratchLen = s.scratchLen
  /-- only the bytes below `scratch_len` are read, in `W_DECODE` (R22) -/
  scratch : s.wphase = .decode → ∀ i < s.scratchLen, Memory.read t.scratch i = Memory.read s.scratch i

/-- Two outcomes of the same kind, and indistinct if they are next states. -/
def SameOutcome : Host.Outcome State Fault Refusal → Host.Outcome State Fault Refusal → Prop
  | .next s, .next t => Indistinct s t
  | .fault a, .fault b => a = b
  | .refused a, .refused b => a = b
  | _, _ => False

/-- The formula of `RC.RH` with an `n`-bit two's-complement intermediate (R129). -/
def wideRh (n : Nat) (f : RcFrame) : BitVec n :=
  (f.b0.signExtend n ||| f.b1.signExtend n <<< 8) &&& BitVec.ofNat n 0x07FF

/-- The formula of `RC.RV` with an `n`-bit two's-complement intermediate (R129). -/
def wideRv (n : Nat) (f : RcFrame) : BitVec n :=
  ((f.b1.signExtend n).sshiftRight 3 ||| f.b2.signExtend n <<< 5) &&& BitVec.ofNat n 0x07FF

/-- The formula of `RC.LH` with an `n`-bit two's-complement intermediate (R129). -/
def wideLh (n : Nat) (f : RcFrame) : BitVec n :=
  ((f.b2.signExtend n).sshiftRight 6 ||| f.b3.signExtend n <<< 2 ||| f.b4.signExtend n <<< 10) &&&
    BitVec.ofNat n 0x07FF

/-- The formula of `RC.LV` with an `n`-bit two's-complement intermediate (R129). -/
def wideLv (n : Nat) (f : RcFrame) : BitVec n :=
  ((f.b4.signExtend n).sshiftRight 1 ||| f.b5.signExtend n <<< 7) &&& BitVec.ofNat n 0x07FF

/-- The formula of `RC.SL` with an `n`-bit two's-complement intermediate (R129). -/
def wideSl (n : Nat) (f : RcFrame) : BitVec n :=
  ((f.b5.signExtend n).sshiftRight 4 &&& BitVec.ofNat n 0x0C) >>> 2

/-- The formula of `RC.SR` with an `n`-bit two's-complement intermediate (R129). -/
def wideSr (n : Nat) (f : RcFrame) : BitVec n :=
  (f.b5.signExtend n).sshiftRight 4 &&& BitVec.ofNat n 0x03

/-- `n` copies of bit 7 of a byte, `{n{b[7]}}` (R11): what the signed widening adds (R83, R126). -/
def signFill (n : Nat) (b : Byte) : BitVec n := if b.msb then BitVec.allOnes n else 0#n

end Sys2Proof.Machine
end

