-- ==== Sys2Proof/Certificates/Slice0/Obligations.lean ====
section
/-!
DEFINITION. The statements for the provers. Each docstring names the rule or the sections it formalises; where a clause is
the model's own choice it says so and names the log entry, and where it is the spec's own decision (spec/92) it names that.
-/

open Sys2Proof Sys2Proof.Machine

/-! ### Encoding and the step -/

/-- An event carries an operation exactly when it is that operation's own event: decoding an encoded operation gives it
back, and no two events stand for one operation (R88, R89; the event form is the model's choice,
notes/assumptions/15.md). -/
def Obligations.DecodeEncodeAgree : Prop :=
  ∀ (e : PortEvent) (i : Instr), decode e = .ok i ↔ e = encode i

/-- The frame integer: bit `f` of `F` is bit `f mod 8` of byte `f div 8`, and the bytes are recovered from `F` (R53). -/
def Obligations.FrameIntegerBits : Prop :=
  ∀ b : List Byte,
    frameInteger b < 2 ^ (8 * b.length) ∧
    (∀ f, f < 8 * b.length → (frameInteger b).testBit f = (b.getD (f / 8) 0).getLsbD (f % 8)) ∧
    frameBytes b.length (frameInteger b) = b

/-- Words and events written out from the spec: the frame integers of W1 and W2 (spec/95 section 2, T7) are the
remote-control frames T7 lists, S4 is a companion frame, and events of the pipeline ports carry their operations (R88). -/
def Obligations.WrittenOutWordsDecode : Prop :=
  decodeTableWord 144 0x000000000000000000000000D80100200400 =
      some (.rcDecode [0x00, 0x04, 0x20, 0x00, 0x01, 0xD8, 0, 0, 0, 0, 0, 0, 0, 0, 0, 0, 0, 0]) ∧
  decodeTableWord 144 0xFF55AA8100018000012CFFFE780100200400 =
      some (.rcDecode [0x00, 0x04, 0x20, 0x00, 0x01, 0x78, 0xFE, 0xFF, 0x2C, 0x01, 0x00, 0x80, 0x01, 0x00, 0x81, 0xAA,
        0x55, 0xFF]) ∧
  decodeTableWord 64 0x00000000002A0000 = some (.cpDecode [0, 0, 0x2A, 0, 0, 0, 0, 0]) ∧
  (decode ⟨.qPush, .note ⟨0, 18⟩⟩).toOption = some (.qPush ⟨0, 18⟩) ∧
  (decode ⟨.wRead, .bytes [0xFF, 0x07]⟩).toOption = some (.wRead [0xFF, 0x07]) ∧
  (decode ⟨.wCancel, .level true⟩).toOption = some (.wCancel true) ∧
  (decode ⟨.cpVal, .bytes [0, 0, 0x2A]⟩).toOption = none

/-- A step with an event scheduled runs the operation it carries, after taking the event off the schedule, where the
operation is enabled; otherwise the operation does not happen (R150). The schedule in the state is the model's choice
(notes/assumptions/2.md). -/
def Obligations.StepRunsTheScheduledOperation : Prop :=
  ∀ (s : State) (e : PortEvent) (rest : List PortEvent) (i : Instr),
    s.script = e :: rest → decode e = .ok i →
    (enabled i { s with script := rest } = true → step s = exec i { s with script := rest }) ∧
    (enabled i { s with script := rest } = false → step s = .next { s with script := rest })

/-- An event that carries no operation of the block is refused by name; nothing is run (the refusal is the model's choice,
notes/assumptions/15.md). -/
def Obligations.StepRefusesWhatIsNoOperation : Prop :=
  ∀ (s : State) (e : PortEvent) (rest : List PortEvent), s.script = e :: rest →
    ∀ err, decode e = .error err → step s = .refused (.undecodable err)

/-- The instruction a table word decodes to is the very next one run when the word is placed where the step fetches: at
the state itself where its instance's variant selects that word's frame decoder, else at the state as one of such an
instance (the reading and placing of a table word is the model's choice, notes/assumptions/15.md and 25.md). -/
def Obligations.FetchedWordRunsNext : Prop :=
  ∀ (s : State) (nbits w : Nat) (i : Instr), decodeTableWord nbits w = some i →
    step (s.withFetchWord nbits w) = exec i (s.forVariant (tableVariant nbits)) ∧
    (s.params.variant = tableVariant nbits → step (s.withFetchWord nbits w) = exec i s) ∧
    i.wf (tableVariant nbits) = true

/-- A step with nothing scheduled is the worker's own: pop, read with a free transport answer, decode; and no change
while the worker waits on an empty queue or is halted (R94, R152, R158, R194). That the worker moves of its own accord
is the model's choice (notes/assumptions/3.md). -/
def Obligations.IdleStepIsTheWorkersOwn : Prop :=
  ∀ s : State, s.script = [] →
    (s.wphase = .wait → s.queue ≠ [] → step s = exec .wPop { s with draws := s.draws + 1 }) ∧
    (s.wphase = .read →
      step s = exec (.wRead (freeAnswer s.params.myTid s.draws)) { s with draws := s.draws + 1 }) ∧
    (s.wphase = .decode → step s = exec .wDecode { s with draws := s.draws + 1 }) ∧
    (s.wphase = .wait → s.queue = [] → step s = .next s) ∧
    (s.wphase = .halt → step s = .next s)

/-! ### The remote-control decoder -/

/-- `RC.RH` (R111): the formula, its closed form, its range, and that nothing but the result port changes. -/
def Obligations.RightHorizontalExtraction : Prop :=
  ∀ (f : RcFrame) (s : State), ∃ v : Half,
    exec (.rcRh f) s = .next { s with out := { field := some (.rh v) } } ∧
    v = rhValue .signed f ∧
    v = (sext16 f.b0 ||| shl16 (sext16 f.b1) 8) &&& 0x07FF#16 ∧
    v.extractLsb' 0 8 = f.b0 ∧ v.extractLsb' 8 3 = f.b1.extractLsb' 0 3 ||| signFill 3 f.b0 ∧
    v.toNat ≤ 2047

/-- `RC.RV` (R112): the formula, its closed form, its range, and that nothing but the result port changes. -/
def Obligations.RightVerticalExtraction : Prop :=
  ∀ (f : RcFrame) (s : State), ∃ v : Half,
    exec (.rcRv f) s = .next { s with out := { field := some (.rv v) } } ∧
    v = rvValue .signed f ∧
    v = (asr16 (sext16 f.b1) 3 ||| shl16 (sext16 f.b2) 5) &&& 0x07FF#16 ∧
    v.extractLsb' 0 5 = f.b1.extractLsb' 3 5 ∧ v.extractLsb' 5 6 = f.b2.extractLsb' 0 6 ||| signFill 6 f.b1 ∧
    v.toNat ≤ 2047

/-- `RC.LH` (spec/40 section 2): the formula, its closed form, its range, and that nothing but the result port changes.
That `>>` copies the sign bit, which only this axis can show, is the spec's own decision D2. -/
def Obligations.LeftHorizontalExtraction : Prop :=
  ∀ (f : RcFrame) (s : State), ∃ v : Half,
    exec (.rcLh f) s = .next { s with out := { field := some (.lh v) } } ∧
    v = lhValue .signed f ∧
    v = (asr16 (sext16 f.b2) 6 ||| shl16 (sext16 f.b3) 2 ||| shl16 (sext16 f.b4) 10) &&& 0x07FF#16 ∧
    v.extractLsb' 0 2 = f.b2.extractLsb' 6 2 ∧ v.extractLsb' 2 8 = f.b3 ||| signFill 8 f.b2 ∧
    v.getLsbD 10 = (f.b4.getLsbD 0 || f.b3.getLsbD 7 || f.b2.getLsbD 7) ∧
    v.toNat ≤ 2047

/-- `RC.LV` (R114): the formula, its closed form, its range, and that nothing but the result port changes. -/
def Obligations.LeftVerticalExtraction : Prop :=
  ∀ (f : RcFrame) (s : State), ∃ v : Half,
    exec (.rcLv f) s = .next { s with out := { field := some (.lv v) } } ∧
    v = lvValue .signed f ∧
    v = (asr16 (sext16 f.b4) 1 ||| shl16 (sext16 f.b5) 7) &&& 0x07FF#16 ∧
    v.extractLsb' 0 7 = f.b4.extractLsb' 1 7 ∧ v.extractLsb' 7 4 = f.b5.extractLsb' 0 4 ||| signFill 4 f.b4 ∧
    v.toNat ≤ 2047

/-- `RC.SL` and `RC.SR` (spec/40 section 3): the formulas, their closed forms under either widening, and that nothing but
the result port changes. That the closed form is the same under either widening is marked by the spec as its own
inference ("[derived: the mask `0x000C` selects bits 3:2 of the shifted value ...]"). -/
def Obligations.SwitchExtractions : Prop :=
  ∀ (f : RcFrame) (s : State),
    exec (.rcSl f) s = .next { s with out := { field := some (.sl (f.b5.extractLsb' 6 2)) } } ∧
    exec (.rcSr f) s = .next { s with out := { field := some (.sr (f.b5.extractLsb' 4 2)) } } ∧
    f.b5.extractLsb' 6 2 = slValue .signed f ∧ f.b5.extractLsb' 4 2 = srValue .signed f ∧
    (∀ w, f.b5.extractLsb' 6 2 = (lsr16 (asr16 (widen w f.b5) 4 &&& 0x000C#16) 2).setWidth 2) ∧
    (∀ w, f.b5.extractLsb' 4 2 = (asr16 (widen w f.b5) 4 &&& 0x0003#16).setWidth 2)

/-- `RC.MX`, `RC.MY`, `RC.MZ` (spec/40 section 4; plain widening is the spec's own decision D5): the little-endian signed
16-bit integer of the two bytes, and nothing but the result port changes. -/
def Obligations.MouseExtractions : Prop :=
  ∀ (f : RcFrame) (s : State),
    (∃ v : Half, exec (.rcMx f) s = .next { s with out := { field := some (.mx v) } } ∧ v = mxValue f ∧
      v.toInt = (if f.b7.toNat < 128 then f.b6.toNat + 256 * f.b7.toNat else f.b6.toNat + 256 * f.b7.toNat - 65536 : Int)) ∧
    (∃ v : Half, exec (.rcMy f) s = .next { s with out := { field := some (.my v) } } ∧ v = myValue f ∧
      v.toInt = (if f.b9.toNat < 128 then f.b8.toNat + 256 * f.b9.toNat else f.b8.toNat + 256 * f.b9.toNat - 65536 : Int)) ∧
    (∃ v : Half, exec (.rcMz f) s = .next { s with out := { field := some (.mz v) } } ∧ v = mzValue f ∧
      v.toInt =
        (if f.b11.toNat < 128 then f.b10.toNat + 256 * f.b11.toNat else f.b10.toNat + 256 * f.b11.toNat - 65536 : Int))

/-- `RC.ML`, `RC.MR`, `RC.KB` (spec/40 section 5; the raw byte and the zero extension are the spec's own decisions D6 and
D7): the raw button bytes, the keyboard byte with bits 15:8 zero, byte 15 without effect, and nothing but the result port
changes. -/
def Obligations.ButtonAndKeyboardExtractions : Prop :=
  ∀ (f : RcFrame) (s : State),
    exec (.rcMl f) s = .next { s with out := { field := some (.ml f.b12) } } ∧
    exec (.rcMr f) s = .next { s with out := { field := some (.mr f.b13) } } ∧
    f.b12 = mlValue f ∧ f.b13 = mrValue f ∧
    ∃ v : Half, exec (.rcKb f) s = .next { s with out := { field := some (.kb v) } } ∧ v = kbValue f ∧
      v.toNat = f.b14.toNat

/-- `RC.DECODE` (R123): any length but 18 fails; 18 bytes give the record of the twelve extractions; nothing but the
result port changes, and the result depends on the bytes alone. -/
def Obligations.RemoteFrameDecode : Prop :=
  ∀ (b : List Byte) (s : State),
    (b.length ≠ 18 → exec (.rcDecode b) s = .next { s with out := { decoded := some .lengthMismatch } }) ∧
    (b.length = 18 → ∃ f : RcFrame, f.toBytes = b ∧
      exec (.rcDecode b) s = .next { s with out := { decoded := some (.ok (.rc
        { rh := rhValue .signed f, rv := rvValue .signed f, lh := lhValue .signed f, lv := lvValue .signed f,
          sl := slValue .signed f, sr := srValue .signed f, mx := mxValue f, my := myValue f, mz := mzValue f,
          ml := mlValue f, mr := mrValue f, kb := kbValue f })) } })

/-- Bytes 15, 16 and 17 affect no output of a decode (spec/30 section 2, the unused bytes; decision D7), and the four axes
and two switches depend on bytes 0 to 5 alone (spec/30 section 2, the field dependence rule). -/
def Obligations.UnusedBytesAffectNothing : Prop :=
  (∀ (w : Config.Widening) (b c : List Byte), b.length = 18 → c.length = 18 → b.take 15 = c.take 15 →
    rcDecodeFrame w b = rcDecodeFrame w c) ∧
  (∀ (w : Config.Widening) (f g : RcFrame), f.toBytes.take 6 = g.toBytes.take 6 →
    rhValue w f = rhValue w g ∧ rvValue w f = rvValue w g ∧ lhValue w f = lhValue w g ∧ lvValue w f = lvValue w g ∧
    slValue w f = slValue w g ∧ srValue w f = srValue w g)

/-- The unsigned reading is the plain range of the frame integer (R82, R127): each axis and switch under
`BYTE_WIDENING = unsigned` is its contiguous range of `F`. -/
def Obligations.UnsignedReadingIsTheFrameRange : Prop :=
  ∀ f : RcFrame,
    (rhValue .unsigned f).toNat = frameInteger f.toBytes % 2 ^ 11 ∧
    (rvValue .unsigned f).toNat = frameInteger f.toBytes / 2 ^ 11 % 2 ^ 11 ∧
    (lhValue .unsigned f).toNat = frameInteger f.toBytes / 2 ^ 22 % 2 ^ 11 ∧
    (lvValue .unsigned f).toNat = frameInteger f.toBytes / 2 ^ 33 % 2 ^ 11 ∧
    (srValue .unsigned f).toNat = frameInteger f.toBytes / 2 ^ 44 % 2 ^ 2 ∧
    (slValue .unsigned f).toNat = frameInteger f.toBytes / 2 ^ 46 % 2 ^ 2

/-- Where the signed and the unsigned reading agree, axis by axis, that the switches always do, and the sufficient
condition of R127. -/
def Obligations.WideningReadingsAgree : Prop :=
  ∀ f : RcFrame,
    (rhValue .signed f = rhValue .unsigned f ↔ f.b0.msb = false ∨ f.b1.extractLsb' 0 3 = 7#3) ∧
    (rvValue .signed f = rvValue .unsigned f ↔ f.b1.msb = false ∨ f.b2.extractLsb' 0 6 = 63#6) ∧
    (lvValue .signed f = lvValue .unsigned f ↔ f.b4.msb = false ∨ f.b5.extractLsb' 0 4 = 15#4) ∧
    (lhValue .signed f = lhValue .unsigned f ↔
      (f.b2.msb = false ∨ f.b3 = 0xFF#8) ∧ (f.b2.msb = false ∧ f.b3.msb = false ∨ f.b4.getLsbD 0 = true)) ∧
    slValue .signed f = slValue .unsigned f ∧ srValue .signed f = srValue .unsigned f ∧
    (f.b0.toNat < 0x80 → f.b1.toNat < 0x80 → f.b2.toNat < 0x80 → f.b3.toNat < 0x80 → f.b4.toNat < 0x80 →
      channelState .signed f = channelState .unsigned f)

/-- The axis and switch results do not depend on the width of the intermediate, from 16 bits up (R129), and a logical
right shift on 16 bits would change `LH` where R129 says. -/
def Obligations.IntermediateWidthDoesNotMatter : Prop :=
  ∀ f : RcFrame,
    (∀ n, 16 ≤ n →
      (wideRh n f).toNat = (rhValue .signed f).toNat ∧ (wideRv n f).toNat = (rvValue .signed f).toNat ∧
      (wideLh n f).toNat = (lhValue .signed f).toNat ∧ (wideLv n f).toNat = (lvValue .signed f).toNat ∧
      (wideSl n f).toNat = (slValue .signed f).toNat ∧ (wideSr n f).toNat = (srValue .signed f).toNat) ∧
    (f.b2.msb = true → f.b3.msb = false → f.b4.getLsbD 0 = false →
      (lsr16 (sext16 f.b2) 6 ||| shl16 (sext16 f.b3) 2 ||| shl16 (sext16 f.b4) 10) &&& 0x07FF#16 ≠ lhValue .signed f)

/-- The laws of the intermediate arithmetic (spec/00 section 4 and spec/40 section 7; the kind of the shifts is the spec's
own decisions D2 and D3): widening, left shift modulo 2^16, right shift as a floor, the axis mask. -/
def Obligations.IntermediateArithmeticLaws : Prop :=
  (∀ b : Byte, (sext16 b).toInt = if b.toNat < 128 then (b.toNat : Int) else (b.toNat : Int) - 256) ∧
  (∀ b : Byte, (zext16 b).toNat = b.toNat) ∧
  (∀ (v : Half) (k : Nat), k ≤ 15 → (shl16 v k).toNat = v.toNat * 2 ^ k % 2 ^ 16) ∧
  (∀ (v : Half) (k : Nat), k ≤ 15 → (asr16 v k).toInt = v.toInt / 2 ^ k) ∧
  (∀ (v : Half) (k : Nat), k ≤ 15 → (lsr16 v k).toNat = v.toNat / 2 ^ k) ∧
  (∀ v : Half, (v &&& Config.axisMask).toNat = v.toNat % 2048)

/-! ### The companion decoder -/

/-- `CP.VAL` (R140): the signed byte at offset 2, the other bytes without effect, nothing but the result port changed. -/
def Obligations.CompanionExtraction : Prop :=
  ∀ (f : CpFrame) (s : State), ∃ v : Byte,
    exec (.cpVal f) s = .next { s with out := { field := some (.val v) } } ∧
    v = f.toBytes.getD 2 0 ∧
    v.toInt = if f.b2.toNat < 128 then (f.b2.toNat : Int) else (f.b2.toNat : Int) - 256

/-- `CP.DECODE` (R141): any length but 8 fails; 8 bytes give the signed byte at offset 2 as the sole value; nothing but
the result port changes. -/
def Obligations.CompanionFrameDecode : Prop :=
  ∀ (b : List Byte) (s : State),
    (b.length ≠ 8 → exec (.cpDecode b) s = .next { s with out := { decoded := some .lengthMismatch } }) ∧
    (b.length = 8 →
      exec (.cpDecode b) s = .next { s with out := { decoded := some (.ok (.companion ⟨b.getD 2 0⟩)) } })

/-- A frame of the other variant's length is a `LengthMismatch` (spec/30 section 5, the rule on telling formats apart;
decision D14), and a frame of the own length never is. -/
def Obligations.OnlyTheLengthIsChecked : Prop :=
  ∀ (v : Variant) (b : List Byte),
    (decodeFrame v b = .lengthMismatch ↔ b.length ≠ Config.frameLen v) ∧
    (b.length = Config.frameLen v → ∃ r, decodeFrame v b = .ok r ∧ r.variant = v ∧ r.wf = true)

/-! ### The pipeline -/

/-- `Q.PUSH` (R151): appended while there is room, dropped with `QueueOverflow` reported otherwise; nothing else of the
state changes. -/
def Obligations.PushAppendsOrOverflows : Prop :=
  ∀ (n : Notification) (s : State),
    (s.queue.length < s.params.qdepth →
      exec (.qPush n) s = .next { s with queue := s.queue ++ [n], out := { pushOk := some true } }) ∧
    (s.params.qdepth ≤ s.queue.length →
      exec (.qPush n) s = .next { s with
        sink := s.sink ++ [⟨.queueOverflow, n.tid, n.len⟩],
        out := { pushOk := some false, sinkOut := some ⟨.queueOverflow, n.tid, n.len⟩ } })

/-- The producer never waits (R162): whether a push is accepted depends on the occupancy and the depth alone, in any two
states of any two instances. -/
def Obligations.PushDependsOnOccupancyAlone : Prop :=
  ∀ (n m : Notification) (s t : State), s.queue.length = t.queue.length → s.params.qdepth = t.params.qdepth →
    ∃ s' t', exec (.qPush n) s = .next s' ∧ exec (.qPush m) t = .next t' ∧ s'.out.pushOk = t'.out.pushOk ∧
      s'.queue.length = t'.queue.length ∧ s'.wphase = s.wphase ∧ t'.wphase = t.wphase

/-- `W.POP` (R152): the oldest notification goes in hand and leaves the queue; where it is not enabled nothing changes. -/
def Obligations.PopTakesTheOldest : Prop :=
  ∀ s : State,
    (∀ n rest, s.wphase = .wait → s.queue = n :: rest →
      exec .wPop s = .next { s with cur := n, queue := rest, wphase := .read, out := {} }) ∧
    (s.wphase ≠ .wait ∨ s.queue = [] → exec .wPop s = .next s)

/-- `W.READ` (spec/42 section 3; the read's arguments and the length kept are the spec's own decision D12): an answer
within the bound lands in the scratch buffer from index 0, higher indices keep what they held, the length is that of the
answer, the request is as the rule says, and nothing else changes. -/
def Obligations.ReadFillsTheScratchBuffer : Prop :=
  ∀ (answer : List Byte) (s : State), Memory.wf s.scratch → s.wphase = .read →
    answer.length ≤ min s.cur.len s.params.scratchCap →
    ∃ m : Memory,
      exec (.wRead answer) s = .next { s with
        scratch := m, scratchLen := answer.length, wphase := .decode,
        out := { trReq := some ⟨s.cur.tid, 0, min s.cur.len s.params.scratchCap⟩ } } ∧
      (∀ i, Memory.read m i = if i < answer.length then answer.getD i 0 else Memory.read s.scratch i)

/-- A transport that offers more than was asked for delivers the bytes asked for, and a worker that is not in `W_READ`
does not read (the cut is the model's choice, notes/assumptions/11.md). -/
def Obligations.ReadTakesNoMoreThanAsked : Prop :=
  ∀ (answer : List Byte) (s : State),
    exec (.wRead answer) s = exec (.wRead (answer.take (min s.cur.len s.params.scratchCap))) s ∧
    (s.wphase ≠ .read → exec (.wRead answer) s = .next s)

/-- `W.DECODE` (R154, R181): a frame of the right length is decoded by the instance's decoder and replaces the store
record; any other length raises `LengthMismatch` with `cur.tid` and `scratch_len`; either way the worker is back in the
wait and nothing else changes. The success arm is the effect of its part `S.PUBLISH` (R155) and the return to the wait in
one step. -/
def Obligations.DecodePublishesOrReports : Prop :=
  ∀ s : State, s.wphase = .decode → s.scratchLen ≤ s.params.scratchCap →
    (s.scratchLen = Config.frameLen s.params.variant →
      ∃ r, decodeFrame s.params.variant (Memory.readList s.scratch 0 (Config.frameLen s.params.variant)) = .ok r ∧
        exec .wDecode s = .next { s with cs := r, wphase := .wait, out := {} } ∧
        ∃ u, exec (.sPublish r) s = .next u ∧ exec .wDecode s = .next { u with wphase := .wait }) ∧
    (s.scratchLen ≠ Config.frameLen s.params.variant →
      exec .wDecode s = .next { s with
        sink := s.sink ++ [⟨.lengthMismatch, s.cur.tid, s.scratchLen⟩], wphase := .wait,
        out := { sinkOut := some ⟨.lengthMismatch, s.cur.tid, s.scratchLen⟩ } })

/-- Where `W.DECODE` does not decode: outside `W_DECODE` it does not happen; with a `scratch_len` beyond the scratch
buffer, which no run reaches, it faults (the fault is the model's choice, notes/assumptions/24.md). -/
def Obligations.DecodeOutsideItsPhaseOrBuffer : Prop :=
  ∀ s : State,
    (s.wphase ≠ .decode → exec .wDecode s = .next s) ∧
    (s.wphase = .decode → s.params.scratchCap < s.scratchLen → exec .wDecode s = .fault .scratchExtent)

/-- `S.PUBLISH` (R155), the effect it has inside `W.DECODE`: every field of the store record is replaced at once, whatever
the values of the fields, and nothing else changes; a record of the other variant is no operand of it and is refused (the
refusal is the model's choice, notes/assumptions/17.md). -/
def Obligations.PublishReplacesTheWholeRecord : Prop :=
  ∀ (r : Record) (s : State),
    (r.variant = s.params.variant → exec (.sPublish r) s = .next { s with cs := r, out := {} }) ∧
    (r.variant ≠ s.params.variant → exec (.sPublish r) s = .refused (.recordVariant r.variant))

/-- `S.SNAPSHOT` (R156): a copy of the whole record, in every state, with no state change. -/
def Obligations.SnapshotCopiesTheStore : Prop :=
  ∀ s : State, exec .sSnapshot s = .next { s with out := { snapOut := some s.cs } }

/-- `W.CANCEL` (spec/42 section 5; `HAS_CANCEL` is the spec's own decision D19): where it is enabled the worker halts and
nothing else changes; where one of its three conditions is missing it does not happen. -/
def Obligations.CancelHaltsTheWaitingWorker : Prop :=
  ∀ (cancel : Bool) (s : State),
    (s.params.hasCancel = true → cancel = true → s.wphase = .wait →
      exec (.wCancel cancel) s = .next { s with wphase := .halt, out := {} }) ∧
    (s.params.hasCancel = false ∨ cancel = false ∨ s.wphase ≠ .wait → exec (.wCancel cancel) s = .next s)

/-- `RESET` (spec/70 section 1; the values are the spec's own decision D9): from any state the queue and the sink are
empty, the worker waits, the store is `RESET_RECORD`, the parameters are unchanged; what it leaves unspecified keeps its
bounds, and a snapshot then returns `RESET_RECORD`. -/
def Obligations.ResetLeavesTheResetState : Prop :=
  ∀ s : State, ∃ t, exec .reset s = .next t ∧
    t.queue = [] ∧ t.wphase = .wait ∧ t.halted = false ∧ t.sink = [] ∧ t.cs = s.params.resetRecord ∧
    t.params = s.params ∧ t.script = s.script ∧ Memory.wf t.scratch ∧ Memory.within t.params.scratchCap t.scratch ∧
    t.scratchLen ≤ t.params.scratchCap ∧
    exec .sSnapshot t = .next { t with out := { snapOut := some s.params.resetRecord } }

/-- The reset state of any instance has the values of spec/10 section 10, and the default record is the decided one
(decision D9; notes/assumptions/9.md). `cur`, `scratch` and `scratch_len` are not spoken of: their values at reset are
the model's (notes/assumptions/6.md). -/
def Obligations.ResetStateValues : Prop :=
  (∀ p : Config.Params, (State.init p).queue = [] ∧ (State.init p).wphase = .wait ∧ (State.init p).halted = false ∧
    (State.init p).sink = [] ∧ (State.init p).cs = p.resetRecord ∧ (State.init p).params = p) ∧
  Config.defaultRecord .companion = .companion ⟨0#8⟩ ∧
  Config.defaultRecord .rc =
    .rc ⟨1024#16, 1024#16, 1024#16, 1024#16, 0#2, 0#2, 0#16, 0#16, 0#16, 0#8, 0#8, 0#16⟩

/-! ### Frames over all operations -/

/-- The extractions, the two decoders and the snapshot change no state of the block: only the output ports (R110, R123,
R141, R156). -/
def Obligations.PureOperationsChangeNoState : Prop :=
  ∀ (i : Instr) (s : State),
    (∀ n, i ≠ .qPush n) → i ≠ .wPop → (∀ a, i ≠ .wRead a) → i ≠ .wDecode → (∀ r, i ≠ .sPublish r) →
    (∀ c, i ≠ .wCancel c) → i ≠ .reset →
    ∃ t, exec i s = .next t ∧ SameState s t ∧ (∀ a, Memory.read t.scratch a = Memory.read s.scratch a)

/-- What each operation that does change state leaves unchanged: the push all but queue and sink; the pop all but queue,
phase and `cur`; the read all but scratch buffer and phase; the decode all but store, sink and phase; the publish all but
the store; the cancel all but the phase; and only the read and `RESET` touch a byte of the scratch buffer (R151 to R157,
R210). -/
def Obligations.StepsLeaveTheRestUnchanged : Prop :=
  ∀ (i : Instr) (s t : State), exec i s = .next t →
    (∀ n, i = .qPush n → t = { s with queue := t.queue, sink := t.sink, out := t.out }) ∧
    (i = .wPop → t = { s with queue := t.queue, wphase := t.wphase, cur := t.cur, out := t.out }) ∧
    (∀ a, i = .wRead a →
      t = { s with scratch := t.scratch, scratchLen := t.scratchLen, wphase := t.wphase, out := t.out }) ∧
    (i = .wDecode → t = { s with cs := t.cs, sink := t.sink, wphase := t.wphase, out := t.out }) ∧
    (∀ r, i = .sPublish r → t = { s with cs := t.cs, out := t.out }) ∧
    (∀ c, i = .wCancel c → t = { s with wphase := t.wphase, out := t.out }) ∧
    ((∀ a, i ≠ .wRead a) → i ≠ .reset → ∀ k, Memory.read t.scratch k = Memory.read s.scratch k) ∧
    t.params = s.params

/-- The only transitions of `wphase` (spec/42 section 6; the four phases are the spec's own decision D18). -/
def Obligations.OnlyTheseStepsChangeThePhase : Prop :=
  ∀ (i : Instr) (s t : State), exec i s = .next t → t.wphase ≠ s.wphase →
    (i = .wPop ∧ s.wphase = .wait ∧ t.wphase = .read) ∨
    ((∃ a, i = .wRead a) ∧ s.wphase = .read ∧ t.wphase = .decode) ∨
    (i = .wDecode ∧ s.wphase = .decode ∧ t.wphase = .wait) ∨
    (i = .wCancel true ∧ s.params.hasCancel = true ∧ s.wphase = .wait ∧ t.wphase = .halt) ∨
    (i = .reset ∧ t.wphase = .wait)

/-- Single writer (R61): of all the operations that can be the next step, only a successful decode, with its publish
inside, and `RESET` change the store, and each replaces it whole. -/
def Obligations.OnlyTheWorkerAndResetWriteTheStore : Prop :=
  ∀ (i : Instr) (s t : State), enabled i s = true → exec i s = .next t → t.cs ≠ s.cs →
    (i = .wDecode ∧ s.wphase = .decode ∧ t.wphase = .wait ∧ s.scratchLen = Config.frameLen s.params.variant ∧
      decodeFrame s.params.variant (Memory.readList s.scratch 0 s.scratchLen) = .ok t.cs) ∨
    (i = .reset ∧ t.cs = s.params.resetRecord)

/-- The rights of the contexts (spec/60 section 4): the completion context writes only the queue's tail and the sink, the
worker takes only from the queue's head, a reader writes nothing, and each raises only its own condition. -/
def Obligations.ContextsKeepTheirRights : Prop :=
  ∀ (i : Instr) (s t : State), exec i s = .next t →
    (contextOf i = .completion →
      (t.queue = s.queue ∨ ∃ n, t.queue = s.queue ++ [n]) ∧ t.wphase = s.wphase ∧ t.cur = s.cur ∧ t.cs = s.cs ∧
      t.scratchLen = s.scratchLen ∧ t.params = s.params ∧ t.script = s.script ∧ t.draws = s.draws ∧
      (∀ k, Memory.read t.scratch k = Memory.read s.scratch k) ∧
      (t.sink = s.sink ∨ ∃ e, e.condition = .queueOverflow ∧ t.sink = s.sink ++ [e])) ∧
    (contextOf i = .worker →
      (t.queue = s.queue ∨ ∃ n, s.queue = n :: t.queue) ∧
      (t.sink = s.sink ∨ ∃ e, e.condition = .lengthMismatch ∧ t.sink = s.sink ++ [e])) ∧
    (contextOf i = .reader → SameState s t)

/-- Raising a condition appends one event record to the sink and reports it; the log is append-only but for `RESET`; at
most one condition is raised in a step, by a push on a full queue and by a decode of a wrong length, always there and
nowhere else (R180, R181, R182, R188). -/
def Obligations.TheSinkOnlyGrows : Prop :=
  ∀ (i : Instr) (s t : State), exec i s = .next t → i ≠ .reset →
    (t.sink = s.sink ∨
      ∃ e : EventRecord, t.sink = s.sink ++ [e] ∧ t.out.sinkOut = some e ∧ t.cs = s.cs ∧ t.queue = s.queue ∧
        ((i = .qPush ⟨e.tid, e.len⟩ ∧ e.condition = .queueOverflow ∧ s.params.qdepth ≤ s.queue.length) ∨
          (i = .wDecode ∧ s.wphase = .decode ∧ e.condition = .lengthMismatch ∧ e.tid = s.cur.tid ∧
            e.len = s.scratchLen ∧ s.scratchLen ≠ Config.frameLen s.params.variant ∧ t.wphase = .wait))) ∧
    (∀ n, i = .qPush n → s.params.qdepth ≤ s.queue.length → t.sink = s.sink ++ [⟨.queueOverflow, n.tid, n.len⟩]) ∧
    (i = .wDecode → s.wphase = .decode → s.scratchLen ≠ Config.frameLen s.params.variant →
      t.sink = s.sink ++ [⟨.lengthMismatch, s.cur.tid, s.scratchLen⟩])

/-! ### Invariants and safety -/

/-- The invariant holds after reset, for every choice of the parameters within R8's bounds, whatever the values of the
fields of `RESET_RECORD`, and for `State.reset`. -/
def Obligations.InvariantHoldsAfterReset : Prop :=
  (∀ p : Config.Params, p.wf = true → StateInv (State.init p)) ∧ StateInv State.reset

/-- Every step keeps the invariant, from every state that satisfies it, whatever is scheduled (spec/10 section 11). -/
def Obligations.StepKeepsTheInvariant : Prop :=
  ∀ s t : State, StateInv s → step s = .next t → StateInv t

/-- No step from a state of the invariant faults (spec/60 section 1: no error is fatal to the worker loop). That a step
with nothing scheduled always answers a next state, the worker's own or, where the worker has none, the state as it is,
is the model's choice (notes/assumptions/3.md). -/
def Obligations.InvariantStatesAreSafe : Prop :=
  ∀ s : State, StateInv s → Safe s ∧ (s.script = [] → ∃ t, step s = .next t)

/-- Once a notification is popped the worker cannot become stuck: from `W_READ`, whatever the transport answers, the read
and the decode run and leave it in the wait (spec/42 section 6). -/
def Obligations.WorkerReturnsToTheWait : Prop :=
  ∀ (s : State) (answer : List Byte), s.wphase = .read →
    ∃ t, runAll [.wRead answer, .wDecode] s = .next t ∧ t.wphase = .wait ∧ t.queue = s.queue ∧
      (t.cs ≠ s.cs → t.sink = s.sink)

/-- Halted is permanent until `RESET` (R36): the worker takes no further step, the store keeps the last published record,
and the queue keeps what it held. -/
def Obligations.HaltedUntilReset : Prop :=
  ∀ (is : List Instr) (s t : State), s.halted = true → (∀ i ∈ is, i ≠ .reset) → runAll is s = .next t →
    t.halted = true ∧ t.cs = s.cs ∧ s.queue <+: t.queue

/-- A notification is processed in the order it was accepted, once (R159, R160): along any run without `RESET`, what was
queued and then accepted is what was popped and then is still queued, in that order. -/
def Obligations.QueueIsFirstInFirstOut : Prop :=
  ∀ (is : List Instr) (s t : State), (∀ i ∈ is, i ≠ .reset) → runAll is s = .next t →
    s.queue ++ gather acceptedBy is s = gather poppedBy is s ++ t.queue

/-- The queue never exceeds its capacity, along any run (R32, R160). -/
def Obligations.QueueNeverExceedsItsCapacity : Prop :=
  ∀ (is : List Instr) (s t : State), s.queue.length ≤ s.params.qdepth → runAll is s = .next t →
    t.queue.length ≤ t.params.qdepth ∧ t.params = s.params

/-- A snapshot returns the record of the latest publish that precedes it in the order of steps, or the record the run
began with if there is none (R66). -/
def Obligations.SnapshotReturnsTheLatestPublish : Prop :=
  ∀ (is : List Instr) (s t : State), runAll is s = .next t →
    ∃ u, exec .sSnapshot t = .next u ∧ u.out.snapOut = some ((gather publishedBy is s).getLast?.getD s.cs)

/-- Every accepted notification is popped, read and decoded, exactly once and in order, where the worker is scheduled
whenever it can move (spec/42 section 7; decision D25): with nothing else scheduled, in exactly the steps of work left,
the worker pops the queued notifications, reads the transport for each and decodes each, finishing first the one in hand,
and then waits on an empty queue and stays so. That the worker moves of its own accord is the model's choice
(notes/assumptions/3.md). -/
def Obligations.AcceptedNotificationsAreProcessed : Prop :=
  ∀ s : State, StateInv s → s.script = [] → s.halted = false →
    gatherSteps ownPop (workLeft s) s = s.queue ∧
    gatherSteps ownRead (workLeft s) s = (if s.wphase = .read then [s.cur] else []) ++ s.queue ∧
    gatherSteps ownDecode (workLeft s) s =
      (if s.wphase = .read ∨ s.wphase = .decode then [s.cur] else []) ++ s.queue ∧
    ∃ t, runSteps (workLeft s) s = .next t ∧ t.queue = [] ∧ t.wphase = .wait ∧
      t.quiescent = true ∧ step t = .next t ∧ t.params = s.params

/-- What `RESET` leaves unspecified is never observed (spec/10 sections 2, 7, 9, 10): two states that differ at most in
what no rule reads before it is written answer alike to every sequence of operations, on every port. -/
def Obligations.UnspecifiedStateIsNeverObserved : Prop :=
  ∀ (is : List Instr) (s t : State), Memory.wf s.scratch → Memory.wf t.scratch → Indistinct s t →
    SameOutcome (runAll is s) (runAll is t)

/-- Two instances share nothing (R193): a run of the system is a run of each instance on its own, so every interleaving
of the same steps gives the same two end states. -/
def Obligations.InstancesShareNothing : Prop :=
  ∀ (sides : List Side) (m m' : System),
    System.run sides m = .next m' ↔
      runSteps (sides.count .x) m.x = .next m'.x ∧
        runSteps (sides.count .y) m.y = .next m'.y

/-! ### Records -/

/-- `NOTE` packed with `len` in the low part is the pair again, for any widths that hold it, and fits in `TID_W + LEN_W`
bits (spec/30 section 4; the packing is the spec's own decision D11). -/
def Obligations.PackedNoteIsThePair : Prop :=
  ∀ (tidW lenW : Nat) (n : Notification), n.tid < 2 ^ tidW → n.len < 2 ^ lenW →
    Notification.unpack lenW (n.pack lenW) = n ∧ n.pack lenW < 2 ^ (tidW + lenW)

/-! ### Selection -/

/-- What selects each operation (R89) and so when it can be the next step (R150): the remote-control frame operations on
an instance with `VARIANT = RC`, the companion ones with `VARIANT = COMPANION`, the worker's by its phase, the push, the
snapshot and `RESET` always, `S.PUBLISH` never, because it is not a step of its own (R155). That a pure operation can
stand in a schedule at all is the model's choice (notes/assumptions/16.md). -/
def Obligations.OperationsAreSelectedByVariantAndPhase : Prop :=
  ∀ s : State,
    (∀ i : Instr, i.op ∈ [Op.rcRh, .rcRv, .rcLh, .rcLv, .rcSl, .rcSr, .rcMx, .rcMy, .rcMz, .rcMl, .rcMr, .rcKb,
      .rcDecode] → (enabled i s = true ↔ s.params.variant = .rc)) ∧
    (∀ i : Instr, i.op ∈ [Op.cpVal, .cpDecode] → (enabled i s = true ↔ s.params.variant = .companion)) ∧
    (∀ n, enabled (.qPush n) s = true) ∧
    (enabled .wPop s = true ↔ s.wphase = .wait ∧ s.queue ≠ []) ∧
    (∀ answer, enabled (.wRead answer) s = true ↔ s.wphase = .read) ∧
    (enabled .wDecode s = true ↔ s.wphase = .decode) ∧
    (∀ rec, enabled (.sPublish rec) s = false) ∧
    enabled .sSnapshot s = true ∧
    (∀ cancel, enabled (.wCancel cancel) s = true ↔ s.params.hasCancel = true ∧ cancel = true ∧ s.wphase = .wait) ∧
    enabled .reset s = true
end

