-- ==== Sys2Proof/Laws/State.lean ====
section
/-!
SUPPORT. One lemma per field per update of the state, true by rfl, so that no proof unfolds a record update.
-/

namespace Sys2Proof.Machine

@[simp] theorem State.forVariant_self (s : State) : s.forVariant s.params.variant = s := by simp [State.forVariant]
@[simp] theorem State.forVariant_variant (s : State) (v : Variant) : (s.forVariant v).params.variant = v := by
  unfold State.forVariant; split <;> simp_all
@[simp] theorem State.forVariant_queue (s : State) (v : Variant) : (s.forVariant v).queue = s.queue := by
  unfold State.forVariant; split <;> rfl
@[simp] theorem State.forVariant_wphase (s : State) (v : Variant) : (s.forVariant v).wphase = s.wphase := by
  unfold State.forVariant; split <;> rfl
@[simp] theorem State.forVariant_cur (s : State) (v : Variant) : (s.forVariant v).cur = s.cur := by
  unfold State.forVariant; split <;> rfl
@[simp] theorem State.forVariant_scratch (s : State) (v : Variant) : (s.forVariant v).scratch = s.scratch := by
  unfold State.forVariant; split <;> rfl
@[simp] theorem State.forVariant_scratchLen (s : State) (v : Variant) : (s.forVariant v).scratchLen = s.scratchLen := by
  unfold State.forVariant; split <;> rfl
@[simp] theorem State.forVariant_sink (s : State) (v : Variant) : (s.forVariant v).sink = s.sink := by
  unfold State.forVariant; split <;> rfl
@[simp] theorem State.forVariant_out (s : State) (v : Variant) : (s.forVariant v).out = s.out := by
  unfold State.forVariant; split <;> rfl
@[simp] theorem State.forVariant_script (s : State) (v : Variant) : (s.forVariant v).script = s.script := by
  unfold State.forVariant; split <;> rfl
@[simp] theorem State.forVariant_draws (s : State) (v : Variant) : (s.forVariant v).draws = s.draws := by
  unfold State.forVariant; split <;> rfl

@[simp] theorem State.emit_params (s : State) (o : Outputs) : (s.emit o).params = s.params := rfl
@[simp] theorem State.emit_queue (s : State) (o : Outputs) : (s.emit o).queue = s.queue := rfl
@[simp] theorem State.emit_wphase (s : State) (o : Outputs) : (s.emit o).wphase = s.wphase := rfl
@[simp] theorem State.emit_cur (s : State) (o : Outputs) : (s.emit o).cur = s.cur := rfl
@[simp] theorem State.emit_scratch (s : State) (o : Outputs) : (s.emit o).scratch = s.scratch := rfl
@[simp] theorem State.emit_scratchLen (s : State) (o : Outputs) : (s.emit o).scratchLen = s.scratchLen := rfl
@[simp] theorem State.emit_cs (s : State) (o : Outputs) : (s.emit o).cs = s.cs := rfl
@[simp] theorem State.emit_sink (s : State) (o : Outputs) : (s.emit o).sink = s.sink := rfl
@[simp] theorem State.emit_out (s : State) (o : Outputs) : (s.emit o).out = o := rfl
@[simp] theorem State.emit_script (s : State) (o : Outputs) : (s.emit o).script = s.script := rfl
@[simp] theorem State.emit_draws (s : State) (o : Outputs) : (s.emit o).draws = s.draws := rfl

@[simp] theorem State.raise_params (s : State) (e : EventRecord) : (s.raise e).params = s.params := rfl
@[simp] theorem State.raise_queue (s : State) (e : EventRecord) : (s.raise e).queue = s.queue := rfl
@[simp] theorem State.raise_wphase (s : State) (e : EventRecord) : (s.raise e).wphase = s.wphase := rfl
@[simp] theorem State.raise_cur (s : State) (e : EventRecord) : (s.raise e).cur = s.cur := rfl
@[simp] theorem State.raise_scratch (s : State) (e : EventRecord) : (s.raise e).scratch = s.scratch := rfl
@[simp] theorem State.raise_scratchLen (s : State) (e : EventRecord) : (s.raise e).scratchLen = s.scratchLen := rfl
@[simp] theorem State.raise_cs (s : State) (e : EventRecord) : (s.raise e).cs = s.cs := rfl
@[simp] theorem State.raise_sink (s : State) (e : EventRecord) : (s.raise e).sink = s.sink ++ [e] := rfl
@[simp] theorem State.raise_out (s : State) (e : EventRecord) : (s.raise e).out = s.out := rfl
@[simp] theorem State.raise_script (s : State) (e : EventRecord) : (s.raise e).script = s.script := rfl
@[simp] theorem State.raise_draws (s : State) (e : EventRecord) : (s.raise e).draws = s.draws := rfl

@[simp] theorem State.enqueue_params (s : State) (n : Notification) : (s.enqueue n).params = s.params := rfl
@[simp] theorem State.enqueue_queue (s : State) (n : Notification) : (s.enqueue n).queue = s.queue ++ [n] := rfl
@[simp] theorem State.enqueue_wphase (s : State) (n : Notification) : (s.enqueue n).wphase = s.wphase := rfl
@[simp] theorem State.enqueue_cur (s : State) (n : Notification) : (s.enqueue n).cur = s.cur := rfl
@[simp] theorem State.enqueue_scratch (s : State) (n : Notification) : (s.enqueue n).scratch = s.scratch := rfl
@[simp] theorem State.enqueue_scratchLen (s : State) (n : Notification) : (s.enqueue n).scratchLen = s.scratchLen := rfl
@[simp] theorem State.enqueue_cs (s : State) (n : Notification) : (s.enqueue n).cs = s.cs := rfl
@[simp] theorem State.enqueue_sink (s : State) (n : Notification) : (s.enqueue n).sink = s.sink := rfl
@[simp] theorem State.enqueue_out (s : State) (n : Notification) : (s.enqueue n).out = s.out := rfl
@[simp] theorem State.enqueue_script (s : State) (n : Notification) : (s.enqueue n).script = s.script := rfl
@[simp] theorem State.enqueue_draws (s : State) (n : Notification) : (s.enqueue n).draws = s.draws := rfl

@[simp] theorem State.takeInHand_params (s : State) (n : Notification) (rest : List Notification) : (s.takeInHand n rest).params = s.params := rfl
@[simp] theorem State.takeInHand_queue (s : State) (n : Notification) (rest : List Notification) : (s.takeInHand n rest).queue = rest := rfl
@[simp] theorem State.takeInHand_wphase (s : State) (n : Notification) (rest : List Notification) : (s.takeInHand n rest).wphase = .read := rfl
@[simp] theorem State.takeInHand_cur (s : State) (n : Notification) (rest : List Notification) : (s.takeInHand n rest).cur = n := rfl
@[simp] theorem State.takeInHand_scratch (s : State) (n : Notification) (rest : List Notification) : (s.takeInHand n rest).scratch = s.scratch := rfl
@[simp] theorem State.takeInHand_scratchLen (s : State) (n : Notification) (rest : List Notification) : (s.takeInHand n rest).scratchLen = s.scratchLen := rfl
@[simp] theorem State.takeInHand_cs (s : State) (n : Notification) (rest : List Notification) : (s.takeInHand n rest).cs = s.cs := rfl
@[simp] theorem State.takeInHand_sink (s : State) (n : Notification) (rest : List Notification) : (s.takeInHand n rest).sink = s.sink := rfl
@[simp] theorem State.takeInHand_out (s : State) (n : Notification) (rest : List Notification) : (s.takeInHand n rest).out = s.out := rfl
@[simp] theorem State.takeInHand_script (s : State) (n : Notification) (rest : List Notification) : (s.takeInHand n rest).script = s.script := rfl
@[simp] theorem State.takeInHand_draws (s : State) (n : Notification) (rest : List Notification) : (s.takeInHand n rest).draws = s.draws := rfl

@[simp] theorem State.setPhase_params (s : State) (p : WPhase) : (s.setPhase p).params = s.params := rfl
@[simp] theorem State.setPhase_queue (s : State) (p : WPhase) : (s.setPhase p).queue = s.queue := rfl
@[simp] theorem State.setPhase_wphase (s : State) (p : WPhase) : (s.setPhase p).wphase = p := rfl
@[simp] theorem State.setPhase_cur (s : State) (p : WPhase) : (s.setPhase p).cur = s.cur := rfl
@[simp] theorem State.setPhase_scratch (s : State) (p : WPhase) : (s.setPhase p).scratch = s.scratch := rfl
@[simp] theorem State.setPhase_scratchLen (s : State) (p : WPhase) : (s.setPhase p).scratchLen = s.scratchLen := rfl
@[simp] theorem State.setPhase_cs (s : State) (p : WPhase) : (s.setPhase p).cs = s.cs := rfl
@[simp] theorem State.setPhase_sink (s : State) (p : WPhase) : (s.setPhase p).sink = s.sink := rfl
@[simp] theorem State.setPhase_out (s : State) (p : WPhase) : (s.setPhase p).out = s.out := rfl
@[simp] theorem State.setPhase_script (s : State) (p : WPhase) : (s.setPhase p).script = s.script := rfl
@[simp] theorem State.setPhase_draws (s : State) (p : WPhase) : (s.setPhase p).draws = s.draws := rfl

@[simp] theorem State.fillScratch_params (s : State) (b : List Byte) : (s.fillScratch b).params = s.params := rfl
@[simp] theorem State.fillScratch_queue (s : State) (b : List Byte) : (s.fillScratch b).queue = s.queue := rfl
@[simp] theorem State.fillScratch_wphase (s : State) (b : List Byte) : (s.fillScratch b).wphase = s.wphase := rfl
@[simp] theorem State.fillScratch_cur (s : State) (b : List Byte) : (s.fillScratch b).cur = s.cur := rfl
@[simp] theorem State.fillScratch_scratch (s : State) (b : List Byte) : (s.fillScratch b).scratch = Memory.writeList s.scratch 0 b := rfl
@[simp] theorem State.fillScratch_scratchLen (s : State) (b : List Byte) : (s.fillScratch b).scratchLen = b.length := rfl
@[simp] theorem State.fillScratch_cs (s : State) (b : List Byte) : (s.fillScratch b).cs = s.cs := rfl
@[simp] theorem State.fillScratch_sink (s : State) (b : List Byte) : (s.fillScratch b).sink = s.sink := rfl
@[simp] theorem State.fillScratch_out (s : State) (b : List Byte) : (s.fillScratch b).out = s.out := rfl
@[simp] theorem State.fillScratch_script (s : State) (b : List Byte) : (s.fillScratch b).script = s.script := rfl
@[simp] theorem State.fillScratch_draws (s : State) (b : List Byte) : (s.fillScratch b).draws = s.draws := rfl

@[simp] theorem State.publish_params (s : State) (r : Record) : (s.publish r).params = s.params := rfl
@[simp] theorem State.publish_queue (s : State) (r : Record) : (s.publish r).queue = s.queue := rfl
@[simp] theorem State.publish_wphase (s : State) (r : Record) : (s.publish r).wphase = s.wphase := rfl
@[simp] theorem State.publish_cur (s : State) (r : Record) : (s.publish r).cur = s.cur := rfl
@[simp] theorem State.publish_scratch (s : State) (r : Record) : (s.publish r).scratch = s.scratch := rfl
@[simp] theorem State.publish_scratchLen (s : State) (r : Record) : (s.publish r).scratchLen = s.scratchLen := rfl
@[simp] theorem State.publish_cs (s : State) (r : Record) : (s.publish r).cs = r := rfl
@[simp] theorem State.publish_sink (s : State) (r : Record) : (s.publish r).sink = s.sink := rfl
@[simp] theorem State.publish_out (s : State) (r : Record) : (s.publish r).out = s.out := rfl
@[simp] theorem State.publish_script (s : State) (r : Record) : (s.publish r).script = s.script := rfl
@[simp] theorem State.publish_draws (s : State) (r : Record) : (s.publish r).draws = s.draws := rfl

@[simp] theorem State.advance_params (s : State) (rest : List PortEvent) : (s.advance rest).params = s.params := rfl
@[simp] theorem State.advance_queue (s : State) (rest : List PortEvent) : (s.advance rest).queue = s.queue := rfl
@[simp] theorem State.advance_wphase (s : State) (rest : List PortEvent) : (s.advance rest).wphase = s.wphase := rfl
@[simp] theorem State.advance_cur (s : State) (rest : List PortEvent) : (s.advance rest).cur = s.cur := rfl
@[simp] theorem State.advance_scratch (s : State) (rest : List PortEvent) : (s.advance rest).scratch = s.scratch := rfl
@[simp] theorem State.advance_scratchLen (s : State) (rest : List PortEvent) : (s.advance rest).scratchLen = s.scratchLen := rfl
@[simp] theorem State.advance_cs (s : State) (rest : List PortEvent) : (s.advance rest).cs = s.cs := rfl
@[simp] theorem State.advance_sink (s : State) (rest : List PortEvent) : (s.advance rest).sink = s.sink := rfl
@[simp] theorem State.advance_out (s : State) (rest : List PortEvent) : (s.advance rest).out = s.out := rfl
@[simp] theorem State.advance_script (s : State) (rest : List PortEvent) : (s.advance rest).script = rest := rfl
@[simp] theorem State.advance_draws (s : State) (rest : List PortEvent) : (s.advance rest).draws = s.draws := rfl

@[simp] theorem State.countDraw_params (s : State) : (s.countDraw).params = s.params := rfl
@[simp] theorem State.countDraw_queue (s : State) : (s.countDraw).queue = s.queue := rfl
@[simp] theorem State.countDraw_wphase (s : State) : (s.countDraw).wphase = s.wphase := rfl
@[simp] theorem State.countDraw_cur (s : State) : (s.countDraw).cur = s.cur := rfl
@[simp] theorem State.countDraw_scratch (s : State) : (s.countDraw).scratch = s.scratch := rfl
@[simp] theorem State.countDraw_scratchLen (s : State) : (s.countDraw).scratchLen = s.scratchLen := rfl
@[simp] theorem State.countDraw_cs (s : State) : (s.countDraw).cs = s.cs := rfl
@[simp] theorem State.countDraw_sink (s : State) : (s.countDraw).sink = s.sink := rfl
@[simp] theorem State.countDraw_out (s : State) : (s.countDraw).out = s.out := rfl
@[simp] theorem State.countDraw_script (s : State) : (s.countDraw).script = s.script := rfl
@[simp] theorem State.countDraw_draws (s : State) : (s.countDraw).draws = s.draws + 1 := rfl

@[simp] theorem State.restart_params (s : State) : (s.restart).params = s.params := rfl
@[simp] theorem State.restart_queue (s : State) : (s.restart).queue = [] := rfl
@[simp] theorem State.restart_wphase (s : State) : (s.restart).wphase = .wait := rfl
@[simp] theorem State.restart_cur (s : State) : (s.restart).cur = freeNotification s.params.myTid s.draws := rfl
@[simp] theorem State.restart_scratch (s : State) : (s.restart).scratch = Memory.writeList [] 0 (freeBytes s.params.myTid s.draws 0 s.params.scratchCap) := rfl
@[simp] theorem State.restart_scratchLen (s : State) : (s.restart).scratchLen = Config.freeNat s.params.myTid s.draws 2 % (s.params.scratchCap + 1) := rfl
@[simp] theorem State.restart_cs (s : State) : (s.restart).cs = s.params.resetRecord := rfl
@[simp] theorem State.restart_sink (s : State) : (s.restart).sink = [] := rfl
@[simp] theorem State.restart_out (s : State) : (s.restart).out = s.out := rfl
@[simp] theorem State.restart_script (s : State) : (s.restart).script = s.script := rfl
@[simp] theorem State.restart_draws (s : State) : (s.restart).draws = s.draws + 1 := rfl

@[simp] theorem State.discardFrame_params (s : State) : (s.discardFrame).params = s.params := rfl
@[simp] theorem State.discardFrame_queue (s : State) : (s.discardFrame).queue = s.queue := rfl
@[simp] theorem State.discardFrame_wphase (s : State) : (s.discardFrame).wphase = .wait := rfl
@[simp] theorem State.discardFrame_cur (s : State) : (s.discardFrame).cur = s.cur := rfl
@[simp] theorem State.discardFrame_scratch (s : State) : (s.discardFrame).scratch = s.scratch := rfl
@[simp] theorem State.discardFrame_scratchLen (s : State) : (s.discardFrame).scratchLen = s.scratchLen := rfl
@[simp] theorem State.discardFrame_cs (s : State) : (s.discardFrame).cs = s.cs := rfl
@[simp] theorem State.discardFrame_sink (s : State) : (s.discardFrame).sink = s.sink ++ [⟨.lengthMismatch, s.cur.tid, s.scratchLen⟩] := rfl
@[simp] theorem State.discardFrame_out (s : State) : (s.discardFrame).out = { sinkOut := some ⟨.lengthMismatch, s.cur.tid, s.scratchLen⟩ } := rfl
@[simp] theorem State.discardFrame_script (s : State) : (s.discardFrame).script = s.script := rfl
@[simp] theorem State.discardFrame_draws (s : State) : (s.discardFrame).draws = s.draws := rfl

@[simp] theorem State.publishFrame_params (s : State) (r : Record) : (s.publishFrame r).params = s.params := rfl
@[simp] theorem State.publishFrame_queue (s : State) (r : Record) : (s.publishFrame r).queue = s.queue := rfl
@[simp] theorem State.publishFrame_wphase (s : State) (r : Record) : (s.publishFrame r).wphase = .wait := rfl
@[simp] theorem State.publishFrame_cur (s : State) (r : Record) : (s.publishFrame r).cur = s.cur := rfl
@[simp] theorem State.publishFrame_scratch (s : State) (r : Record) : (s.publishFrame r).scratch = s.scratch := rfl
@[simp] theorem State.publishFrame_scratchLen (s : State) (r : Record) : (s.publishFrame r).scratchLen = s.scratchLen := rfl
@[simp] theorem State.publishFrame_cs (s : State) (r : Record) : (s.publishFrame r).cs = r := rfl
@[simp] theorem State.publishFrame_sink (s : State) (r : Record) : (s.publishFrame r).sink = s.sink := rfl
@[simp] theorem State.publishFrame_out (s : State) (r : Record) : (s.publishFrame r).out = {} := rfl
@[simp] theorem State.publishFrame_script (s : State) (r : Record) : (s.publishFrame r).script = s.script := rfl
@[simp] theorem State.publishFrame_draws (s : State) (r : Record) : (s.publishFrame r).draws = s.draws := rfl

@[simp] theorem State.init_params (p : Config.Params) : (State.init p).params = p := rfl
@[simp] theorem State.init_queue (p : Config.Params) : (State.init p).queue = [] := rfl
@[simp] theorem State.init_wphase (p : Config.Params) : (State.init p).wphase = .wait := rfl
@[simp] theorem State.init_scratch (p : Config.Params) : (State.init p).scratch = [] := rfl
@[simp] theorem State.init_scratchLen (p : Config.Params) : (State.init p).scratchLen = 0 := rfl
@[simp] theorem State.init_cs (p : Config.Params) : (State.init p).cs = p.resetRecord := rfl
@[simp] theorem State.init_sink (p : Config.Params) : (State.init p).sink = [] := rfl
@[simp] theorem State.init_script (p : Config.Params) : (State.init p).script = [] := rfl

theorem State.halted_iff (s : State) : s.halted = true ↔ s.wphase = .halt := by simp [State.halted]

theorem State.hasRoom_iff (s : State) : s.hasRoom = true ↔ s.queue.length < s.params.qdepth := by
  simp [State.hasRoom]

theorem State.popEnabled_iff (s : State) : s.popEnabled = true ↔ s.wphase = .wait ∧ s.queue ≠ [] := by
  simp [State.popEnabled]

theorem State.readEnabled_iff (s : State) : s.readEnabled = true ↔ s.wphase = .read := by simp [State.readEnabled]

theorem State.decodeEnabled_iff (s : State) : s.decodeEnabled = true ↔ s.wphase = .decode := by
  simp [State.decodeEnabled]

theorem State.cancelEnabled_iff (s : State) (c : Bool) :
    s.cancelEnabled c = true ↔ s.params.hasCancel = true ∧ c = true ∧ s.wphase = .wait := by
  simp [State.cancelEnabled, and_assoc]

theorem State.quiescent_iff (s : State) :
    s.quiescent = true ↔ s.queue = [] ∧ (s.wphase = .wait ∨ s.wphase = .halt) := by
  simp [State.quiescent]

end Sys2Proof.Machine
end

