-- ==== Sys2Proof/Laws/Memory.lean ====
section
/-!
SUPPORT. The laws of the byte storage: a read after a write, and that every operation keeps the canonical form and the
extent.
-/

namespace Sys2Proof.Machine

@[simp] theorem Memory.read_nil (a : Nat) : Memory.read [] a = Memory.unlisted := rfl

theorem Memory.read_cons (c : Host.Cell) (m : Memory) (a : Nat) :
    Memory.read (c :: m) a = if a = c.1 then c.2 else Memory.read m a := rfl

/-- An index below every entry has none. -/
theorem Memory.read_of_lt {m : Memory} {a : Nat} (h : ∀ c ∈ m, a < c.1) : Memory.read m a = Memory.unlisted := by
  induction m with
  | nil => rfl
  | cons c rest ih =>
    have hc : a < c.1 := h c (by simp)
    rw [Memory.read_cons, if_neg (by omega)]
    exact ih fun d hd => h d (by simp [hd])

/-- Every entry of a written storage is the written one or an old one. -/
theorem Memory.mem_write {m : Memory} {a : Nat} {v : Byte} {c : Host.Cell} (h : c ∈ Memory.write m a v) :
    c = (a, v) ∧ v ≠ Memory.unlisted ∨ c ∈ m := by
  induction m with
  | nil =>
    unfold Memory.write at h
    split at h <;> simp_all
  | cons d rest ih =>
    obtain ⟨k, w⟩ := d
    unfold Memory.write at h
    split at h
    · split at h <;> simp_all
    · split at h
      · split at h <;> simp_all
        tauto
      · rcases List.mem_cons.1 h with rfl | h
        · simp
        · rcases ih h with h | h
          · exact .inl h
          · exact .inr (by simp [h])

/-- Writing keeps the canonical form. -/
theorem Memory.write_wf {m : Memory} (h : Memory.wf m) (a : Nat) (v : Byte) : Memory.wf (Memory.write m a v) := by
  refine ⟨?_, fun c hc => ?_⟩
  · obtain ⟨hs, -⟩ := h
    induction m with
    | nil =>
      unfold Memory.write
      split <;> simp
    | cons d rest ih =>
      obtain ⟨k, w⟩ := d
      rw [List.pairwise_cons] at hs
      unfold Memory.write
      split
      · rename_i hlt
        split
        · exact List.pairwise_cons.2 hs
        · refine List.pairwise_cons.2 ⟨fun c hc => ?_, List.pairwise_cons.2 hs⟩
          rcases List.mem_cons.1 hc with rfl | hc
          · exact hlt
          · exact Nat.lt_trans hlt (hs.1 c hc)
      · rename_i hnlt
        split
        · split
          · exact hs.2
          · exact List.pairwise_cons.2 hs
        · rename_i hne
          refine List.pairwise_cons.2 ⟨fun c hc => ?_, ih hs.2⟩
          rcases Memory.mem_write hc with ⟨rfl, -⟩ | hc
          · show k < a
            omega
          · exact hs.1 c hc
  · rcases Memory.mem_write hc with ⟨rfl, hv⟩ | hc
    · exact hv
    · exact h.2 c hc

/-- Writing below `cap` keeps the extent. -/
theorem Memory.write_within {m : Memory} {cap a : Nat} {v : Byte} (h : Memory.within cap m) (ha : a < cap) :
    Memory.within cap (Memory.write m a v) := by
  intro c hc
  rcases Memory.mem_write hc with ⟨rfl, -⟩ | hc
  · exact ha
  · exact h c hc

/-- A read after a write: the written byte at its index, every other index as before. -/
theorem Memory.read_write {m : Memory} (h : Memory.wf m) (a b : Nat) (v : Byte) :
    Memory.read (Memory.write m a v) b = if b = a then v else Memory.read m b := by
  induction m with
  | nil =>
    unfold Memory.write
    split <;> rename_i hv
    · split <;> simp [hv]
    · rfl
  | cons d rest ih =>
    obtain ⟨k, w⟩ := d
    obtain ⟨hs, hv⟩ := h
    have hs' := List.pairwise_cons.1 hs
    have ih := ih ⟨hs'.2, fun c hc => hv c (by simp [hc])⟩
    unfold Memory.write
    split
    · rename_i hlt
      have hbelow : ∀ c ∈ (k, w) :: rest, a < c.1 := by
        intro c hc
        rcases List.mem_cons.1 hc with rfl | hc
        · exact hlt
        · exact Nat.lt_trans hlt (hs'.1 c hc)
      split <;> rename_i hu
      · split
        · rename_i hba
          rw [hba, hu]
          exact Memory.read_of_lt hbelow
        · rfl
      · rfl
    · split
      · rename_i hak
        subst hak
        split <;> rename_i hu
        · simp only [Memory.read_cons]
          split
          · rename_i hba
            rw [hba, hu]
            exact Memory.read_of_lt hs'.1
          · rfl
        · simp only [Memory.read_cons]
          split <;> rfl
      · rename_i hne
        simp only [Memory.read_cons, ih]
        by_cases h1 : b = k
        · subst h1
          simp [Ne.symm hne]
        · simp [h1]

/-- Writing a list keeps the canonical form. -/
theorem Memory.writeList_wf {m : Memory} (h : Memory.wf m) (a : Nat) (bytes : List Byte) :
    Memory.wf (Memory.writeList m a bytes) := by
  induction bytes generalizing m a with
  | nil => exact h
  | cons b rest ih => exact ih (Memory.write_wf h a b) (a + 1)

/-- Writing a list that ends below `cap` keeps the extent. -/
theorem Memory.writeList_within {m : Memory} {cap a : Nat} {bytes : List Byte} (h : Memory.within cap m)
    (ha : a + bytes.length ≤ cap) : Memory.within cap (Memory.writeList m a bytes) := by
  induction bytes generalizing m a with
  | nil => exact h
  | cons b rest ih =>
    have hl : a + (rest.length + 1) ≤ cap := by simpa using ha
    exact ih (Memory.write_within h (by omega)) (by omega)

/-- A read after a list is written: the list's byte where the list lies, every other index as before. -/
theorem Memory.read_writeList {m : Memory} (h : Memory.wf m) (a b : Nat) (bytes : List Byte) :
    Memory.read (Memory.writeList m a bytes) b =
      if a ≤ b ∧ b < a + bytes.length then bytes.getD (b - a) 0 else Memory.read m b := by
  induction bytes generalizing m a with
  | nil =>
    have : ¬(a ≤ b ∧ b < a + 0) := by omega
    simp only [List.length_nil, if_neg this]
    rfl
  | cons x rest ih =>
    rw [Memory.writeList, ih (Memory.write_wf h a x), Memory.read_write h, List.length_cons]
    by_cases h1 : b = a
    · subst h1
      simp
    · by_cases h2 : a + 1 ≤ b ∧ b < a + 1 + rest.length
      · obtain ⟨k, rfl⟩ : ∃ k, b = a + 1 + k := ⟨b - (a + 1), by omega⟩
        have e1 : a + 1 + k - (a + 1) = k := by omega
        have e2 : a + 1 + k - a = k + 1 := by omega
        rw [if_pos h2, if_pos (by omega), e1, e2]
        simp
      · rw [if_neg h2, if_neg h1, if_neg (by omega)]

@[simp] theorem Memory.length_readList (m : Memory) (a n : Nat) : (Memory.readList m a n).length = n := by
  induction n generalizing a with
  | zero => rfl
  | succ n ih => simp [Memory.readList, ih]

/-- The bytes a list read gives, one by one. -/
theorem Memory.getD_readList (m : Memory) (a n i : Nat) (h : i < n) :
    (Memory.readList m a n).getD i 0 = Memory.read m (a + i) := by
  induction n generalizing a i with
  | zero => omega
  | succ n ih =>
    cases i with
    | zero => rfl
    | succ i =>
      simp only [Memory.readList, List.getD_cons_succ]
      rw [ih (a + 1) i (by omega)]
      congr 1
      omega

/-- Two storages that agree on an index range give the same list. -/
theorem Memory.readList_congr {m m' : Memory} {a n : Nat}
    (h : ∀ i, a ≤ i → i < a + n → Memory.read m i = Memory.read m' i) :
    Memory.readList m a n = Memory.readList m' a n := by
  induction n generalizing a with
  | zero => rfl
  | succ n ih =>
    simp only [Memory.readList]
    rw [h a (by omega) (by omega), ih fun i h1 h2 => h i (by omega) (by omega)]

/-- A list written into a canonical storage reads back. -/
theorem Memory.readList_writeList {m : Memory} (h : Memory.wf m) (a : Nat) (bytes : List Byte) :
    Memory.readList (Memory.writeList m a bytes) a bytes.length = bytes := by
  apply List.ext_getElem (by simp)
  intro i h1 h2
  have hi : i < bytes.length := h2
  have e := Memory.getD_readList (Memory.writeList m a bytes) a bytes.length i hi
  rw [List.getD_eq_getElem _ _ h1] at e
  rw [e, Memory.read_writeList h, if_pos (by omega)]
  simp [List.getElem?_eq_getElem hi]

@[simp] theorem length_freeBytes (tid d i n : Nat) : (freeBytes tid d i n).length = n := by
  induction n generalizing i with
  | zero => rfl
  | succ n ih => simp [freeBytes, ih]

theorem Memory.nil_wf : Memory.wf [] := ⟨List.Pairwise.nil, fun _ h => nomatch h⟩

theorem State.length_bytesRead_le (s : State) (answer : List Byte) :
    (s.bytesRead answer).length ≤ s.params.scratchCap := by
  simp only [State.bytesRead, State.transportRequest, List.length_take]
  omega

end Sys2Proof.Machine
end

