-- ==== Sys2Proof/Laws/Frames.lean ====
section
/-!
SUPPORT. Frames and byte lists, and what the decoder and the frame decoders answer.
-/

namespace Sys2Proof

@[simp] theorem RcFrame.ofBytes_toBytes (f : RcFrame) : RcFrame.ofBytes f.toBytes = some f := rfl

@[simp] theorem CpFrame.ofBytes_toBytes (f : CpFrame) : CpFrame.ofBytes f.toBytes = some f := rfl

@[simp] theorem RcFrame.length_toBytes (f : RcFrame) : f.toBytes.length = 18 := rfl

@[simp] theorem CpFrame.length_toBytes (f : CpFrame) : f.toBytes.length = 8 := rfl

/-- A byte list that is a remote-control frame is the frame's bytes. -/
theorem RcFrame.toBytes_of_ofBytes {b : List Byte} {f : RcFrame} (h : RcFrame.ofBytes b = some f) : f.toBytes = b := by
  unfold RcFrame.ofBytes at h
  split at h
  · cases h
    rfl
  · cases h

/-- A byte list that is a companion frame is the frame's bytes. -/
theorem CpFrame.toBytes_of_ofBytes {b : List Byte} {f : CpFrame} (h : CpFrame.ofBytes b = some f) : f.toBytes = b := by
  unfold CpFrame.ofBytes at h
  split at h
  · cases h
    rfl
  · cases h

/-- Every list of 18 bytes is a remote-control frame. -/
theorem RcFrame.exists_of_length {b : List Byte} (h : b.length = 18) : ∃ f, RcFrame.ofBytes b = some f := by
  match b, h with
  | [_, _, _, _, _, _, _, _, _, _, _, _, _, _, _, _, _, _], _ => exact ⟨_, rfl⟩

/-- Every list of 8 bytes is a companion frame. -/
theorem CpFrame.exists_of_length {b : List Byte} (h : b.length = 8) : ∃ f, CpFrame.ofBytes b = some f := by
  match b, h with
  | [_, _, _, _, _, _, _, _], _ => exact ⟨_, rfl⟩

/-- A list of any other length is none. -/
theorem RcFrame.ofBytes_of_length_ne {b : List Byte} (h : b.length ≠ 18) : RcFrame.ofBytes b = none := by
  cases e : RcFrame.ofBytes b with
  | none => rfl
  | some f => exact absurd (by rw [← RcFrame.toBytes_of_ofBytes e]; rfl) h

/-- A list of any other length is none. -/
theorem CpFrame.ofBytes_of_length_ne {b : List Byte} (h : b.length ≠ 8) : CpFrame.ofBytes b = none := by
  cases e : CpFrame.ofBytes b with
  | none => rfl
  | some f => exact absurd (by rw [← CpFrame.toBytes_of_ofBytes e]; rfl) h

@[simp] theorem length_frameBytes (n w : Nat) : (frameBytes n w).length = n := by
  induction n generalizing w with
  | zero => rfl
  | succ n ih => simp [frameBytes, ih]

namespace Machine

@[simp] theorem rcDecodeFrame_toBytes (w : Config.Widening) (f : RcFrame) :
    rcDecodeFrame w f.toBytes = .ok (.rc (channelState w f)) := rfl

@[simp] theorem cpDecodeFrame_toBytes (f : CpFrame) :
    cpDecodeFrame f.toBytes = .ok (.companion { val := valValue f }) := rfl

/-- The remote-control decoder fails exactly on a wrong length (R123). -/
theorem rcDecodeFrame_eq_mismatch_iff (w : Config.Widening) (b : List Byte) :
    rcDecodeFrame w b = .lengthMismatch ↔ b.length ≠ 18 := by
  by_cases h : b.length = 18
  · obtain ⟨f, hf⟩ := RcFrame.exists_of_length h
    simp [rcDecodeFrame, hf, h]
  · simp [rcDecodeFrame, RcFrame.ofBytes_of_length_ne h, h]

/-- The companion decoder fails exactly on a wrong length (R141). -/
theorem cpDecodeFrame_eq_mismatch_iff (b : List Byte) : cpDecodeFrame b = .lengthMismatch ↔ b.length ≠ 8 := by
  by_cases h : b.length = 8
  · obtain ⟨f, hf⟩ := CpFrame.exists_of_length h
    simp [cpDecodeFrame, hf, h]
  · simp [cpDecodeFrame, CpFrame.ofBytes_of_length_ne h, h]

/-- The appropriate decoder fails exactly when the length is not the variant's frame length (R154). -/
theorem decodeFrame_eq_mismatch_iff (v : Variant) (b : List Byte) :
    decodeFrame v b = .lengthMismatch ↔ b.length ≠ Config.frameLen v := by
  cases v
  · exact rcDecodeFrame_eq_mismatch_iff _ b
  · exact cpDecodeFrame_eq_mismatch_iff b

/-- A masked axis value is below 2048 (R25). -/
theorem axisWf_and_axisMask (v : Half) : axisWf (v &&& Config.axisMask) = true := by
  have h : (v &&& Config.axisMask).toNat ≤ 0x07FF := by
    rw [BitVec.toNat_and]
    exact Nat.and_le_right
  simp only [axisWf, decide_eq_true_eq]
  omega

/-- A zero-extended byte is below 256 (R29). -/
theorem keyWf_zext16 (b : Byte) : keyWf (zext16 b) = true := by
  have := b.isLt
  simp only [keyWf, zext16, BitVec.toNat_setWidth, decide_eq_true_eq]
  omega

/-- Every decoded channel record lies in R24's value set. -/
theorem channelState_wf (w : Config.Widening) (f : RcFrame) : (Record.rc (channelState w f)).wf = true := by
  simp [Record.wf, Record.axesWf, Record.keyboardWf, ChannelState.axesWf, channelState, rhValue, rvValue, lhValue, lvValue, kbValue, axisWf_and_axisMask, keyWf_zext16]

/-- A successful decode gives a record of the variant, in the value set. -/
theorem decodeFrame_ok {v : Variant} {b : List Byte} {r : Record} (h : decodeFrame v b = .ok r) :
    r.variant = v ∧ r.wf = true := by
  cases v
  · simp only [decodeFrame, rcDecodeFrame] at h
    split at h
    · cases h
      exact ⟨rfl, channelState_wf _ _⟩
    · cases h
  · simp only [decodeFrame, cpDecodeFrame] at h
    split at h
    · cases h
      exact ⟨rfl, rfl⟩
    · cases h

/-- The decode of the scratch buffer, where `scratch_len` is within its bound. -/
theorem State.scratchDecoded_eq {s : State} (h : s.scratchLen ≤ s.params.scratchCap) :
    s.scratchDecoded = some (decodeFrame s.params.variant (Memory.readList s.scratch 0 s.scratchLen)) := by
  simp [State.scratchDecoded, State.scratchFrame, h]

/-- What a successful decode of the scratch buffer says. -/
theorem State.scratchDecoded_some {s : State} {d : Decoded} (h : s.scratchDecoded = some d) :
    s.scratchLen ≤ s.params.scratchCap ∧
      d = decodeFrame s.params.variant (Memory.readList s.scratch 0 s.scratchLen) := by
  unfold State.scratchDecoded State.scratchFrame at h
  split at h
  · exact ⟨‹_›, by simpa using h.symm⟩
  · simp at h

end Machine

end Sys2Proof
end

