-- ==== Sys2Proof/Laws/Exec.lean ====
section
/-!
SUPPORT. Said once: everything an operation can do when it answers a next state (`exec_effect`), everything a step can do
(`step_next_cases`), and when an operation faults or refuses.
-/

namespace Sys2Proof.Machine

/-- The operations that write no state of the block: the extractions, the two decoders and the snapshot. -/
def pureOp : Instr → Bool
  | .rcRh _ => true
  | .rcRv _ => true
  | .rcLh _ => true
  | .rcLv _ => true
  | .rcSl _ => true
  | .rcSr _ => true
  | .rcMx _ => true
  | .rcMy _ => true
  | .rcMz _ => true
  | .rcMl _ => true
  | .rcMr _ => true
  | .rcKb _ => true
  | .rcDecode _ => true
  | .cpVal _ => true
  | .cpDecode _ => true
  | .qPush _ => false
  | .wPop => false
  | .wRead _ => false
  | .wDecode => false
  | .sPublish _ => false
  | .sSnapshot => true
  | .wCancel _ => false
  | .reset => false

/-- Everything an operation can do to a state, guards included. -/
inductive Effect (s : State) : Instr → State → Prop where
  | output (i : Instr) (o : Outputs) (hi : pureOp i = true) (ho : o.sinkOut = none) : Effect s i (s.emit o)
  | accepted (n : Notification) (room : s.queue.length < s.params.qdepth) :
      Effect s (.qPush n) ((s.enqueue n).emit { pushOk := some true })
  | overflowed (n : Notification) (full : s.params.qdepth ≤ s.queue.length) :
      Effect s (.qPush n) ((s.raise ⟨.queueOverflow, n.tid, n.len⟩).emit
        { pushOk := some false, sinkOut := some ⟨.queueOverflow, n.tid, n.len⟩ })
  | popped (n : Notification) (rest : List Notification) (phase : s.wphase = .wait) (head : s.queue = n :: rest) :
      Effect s .wPop ((s.takeInHand n rest).emit {})
  | read (answer : List Byte) (phase : s.wphase = .read) :
      Effect s (.wRead answer)
        (((s.fillScratch (s.bytesRead answer)).setPhase .decode).emit { trReq := some s.transportRequest })
  | published (r : Record) (phase : s.wphase = .decode) (ok : s.scratchDecoded = some (.ok r)) :
      Effect s .wDecode (s.publishFrame r)
  | discarded (phase : s.wphase = .decode) (bad : s.scratchDecoded = some .lengthMismatch) :
      Effect s .wDecode s.discardFrame
  | stored (r : Record) (same : r.variant = s.params.variant) : Effect s (.sPublish r) ((s.publish r).emit {})
  | cancelled (may : s.params.hasCancel = true) (phase : s.wphase = .wait) :
      Effect s (.wCancel true) ((s.setPhase .halt).emit {})
  | restarted : Effect s .reset (s.restart.emit {})
  | notEnabled (i : Instr) (off : enabled i s = false) : Effect s i s

/-- An operation that answers a next state has one of these effects. -/
theorem exec_effect {i : Instr} {s t : State} (h : exec i s = .next t) : Effect s i t := by
  cases i <;> simp only [exec] at h
  case qPush n =>
    simp only [execQPush] at h
    split at h <;> rename_i room <;> cases h
    · exact .accepted n ((State.hasRoom_iff s).1 room)
    · exact .overflowed n (by rw [State.hasRoom_iff] at room; omega)
  case wPop =>
    simp only [execWPop] at h
    split at h <;> cases h
    · exact .popped _ _ ‹_› ‹_›
    · rename_i hn
      refine .notEnabled _ ?_
      rw [← Bool.not_eq_true]
      intro hp
      obtain ⟨h1, h2⟩ := (State.popEnabled_iff s).1 (by simpa [enabled, Instr.wf] using hp)
      obtain ⟨n, rest, hq⟩ := List.exists_cons_of_ne_nil h2
      exact hn n rest h1 hq
  case wRead answer =>
    simp only [execWRead] at h
    split at h <;> rename_i hr <;> cases h
    · exact .read answer ((State.readEnabled_iff s).1 hr)
    · exact .notEnabled _ (by simpa [enabled, Instr.wf] using hr)
  case wDecode =>
    simp only [execWDecode] at h
    split at h <;> rename_i hr
    · split at h <;> cases h
      · exact .published _ ((State.decodeEnabled_iff s).1 hr) ‹_›
      · exact .discarded ((State.decodeEnabled_iff s).1 hr) ‹_›
    · cases h
      exact .notEnabled _ (by simpa [enabled, Instr.wf] using hr)
  case sPublish r =>
    simp only [execSPublish] at h
    split at h <;> cases h
    exact .stored r ‹_›
  case wCancel c =>
    simp only [execWCancel] at h
    split at h <;> rename_i hr <;> cases h
    · obtain ⟨h1, rfl, h3⟩ := (State.cancelEnabled_iff s c).1 hr
      exact .cancelled h1 h3
    · exact .notEnabled _ (by simpa [enabled, Instr.wf] using hr)
  case reset =>
    cases h
    exact .restarted
  all_goals
    cases h
    exact .output _ _ rfl rfl

/-- Where the schedule is empty and the worker has no step, nothing happens. -/
theorem step_idle_none {s : State} (hs : s.script = []) (hw : workerAction s = none) : step s = .next s := by
  simp [step, hs, idleStep, hw]

/-- Where the schedule is empty the worker takes its own step. -/
theorem step_idle_some {s : State} {i : Instr} (hs : s.script = []) (hw : workerAction s = some i) :
    step s = exec i s.countDraw := by
  simp [step, hs, idleStep, hw]

/-- Where an event is scheduled the step runs it. -/
theorem step_script {s : State} {e : PortEvent} {rest : List PortEvent} (hs : s.script = e :: rest) :
    step s = runEvent e (s.advance rest) := by
  simp [step, hs]

/-- Everything a step that answers a next state can have done. -/
theorem step_next_cases {s t : State} (h : step s = .next t) :
    (s.script = [] ∧ workerAction s = none ∧ t = s) ∨
    (∃ i, s.script = [] ∧ workerAction s = some i ∧ exec i s.countDraw = .next t) ∨
    (∃ e rest i, s.script = e :: rest ∧ decode e = .ok i ∧ enabled i (s.advance rest) = true ∧
      exec i (s.advance rest) = .next t) ∨
    (∃ e rest i, s.script = e :: rest ∧ decode e = .ok i ∧ enabled i (s.advance rest) = false ∧
      t = s.advance rest) := by
  cases hs : s.script with
  | nil =>
    cases hw : workerAction s with
    | none =>
      rw [step_idle_none hs hw] at h
      cases h
      exact .inl ⟨rfl, rfl, rfl⟩
    | some i => exact .inr (.inl ⟨i, rfl, rfl, by rw [← step_idle_some hs hw]; exact h⟩)
  | cons e rest =>
    rw [step_script hs, runEvent] at h
    split at h
    · cases h
    · rename_i i hd
      split at h
      · exact .inr (.inr (.inl ⟨e, rest, i, rfl, hd, ‹_›, h⟩))
      · rename_i hn
        cases h
        exact .inr (.inr (.inr ⟨e, rest, i, rfl, hd, by simpa using hn, rfl⟩))

/-- An operation faults only when the worker decodes with a `scratch_len` beyond the scratch buffer. -/
theorem exec_fault_cases {i : Instr} {s : State} {r : Fault} (h : exec i s = .fault r) :
    i = .wDecode ∧ s.wphase = .decode ∧ s.params.scratchCap < s.scratchLen := by
  cases i <;> simp only [exec] at h
  case qPush => simp only [execQPush] at h; split at h <;> cases h
  case wPop => simp only [execWPop] at h; split at h <;> cases h
  case wRead => simp only [execWRead] at h; split at h <;> cases h
  case wDecode =>
    simp only [execWDecode] at h
    split at h <;> rename_i hr
    · split at h <;> cases h
      rename_i hn
      refine ⟨rfl, (State.decodeEnabled_iff s).1 hr, ?_⟩
      by_contra hle
      rw [State.scratchDecoded_eq (by omega)] at hn
      cases hn
    · cases h
  case sPublish => simp only [execSPublish] at h; split at h <;> cases h
  case wCancel => simp only [execWCancel] at h; split at h <;> cases h
  all_goals cases h

/-- An operation is refused only for a publish of a record of the other variant. -/
theorem exec_refused_cases {i : Instr} {s : State} {r : Refusal} (h : exec i s = .refused r) :
    ∃ q, i = .sPublish q ∧ q.variant ≠ s.params.variant ∧ r = .recordVariant q.variant := by
  cases i <;> simp only [exec] at h
  case qPush => simp only [execQPush] at h; split at h <;> cases h
  case wPop => simp only [execWPop] at h; split at h <;> cases h
  case wRead => simp only [execWRead] at h; split at h <;> cases h
  case wDecode =>
    simp only [execWDecode] at h
    split at h
    · split at h <;> cases h
    · cases h
  case sPublish q =>
    simp only [execSPublish] at h
    split at h <;> cases h
    exact ⟨q, rfl, ‹_›, rfl⟩
  case wCancel => simp only [execWCancel] at h; split at h <;> cases h
  all_goals cases h

/-- No operation changes the parameters (R8). -/
theorem exec_params {i : Instr} {s t : State} (h : exec i s = .next t) : t.params = s.params := by
  cases exec_effect h <;> rfl

/-- No operation changes the schedule. -/
theorem exec_script {i : Instr} {s t : State} (h : exec i s = .next t) : t.script = s.script := by
  cases exec_effect h <;> rfl

@[simp] theorem enabled_qPush (n : Notification) (s : State) : enabled (.qPush n) s = true := rfl
@[simp] theorem enabled_wPop (s : State) : enabled .wPop s = s.popEnabled := rfl
@[simp] theorem enabled_wRead (answer : List Byte) (s : State) : enabled (.wRead answer) s = s.readEnabled := rfl
@[simp] theorem enabled_wDecode (s : State) : enabled .wDecode s = s.decodeEnabled := rfl
@[simp] theorem enabled_sSnapshot (s : State) : enabled .sSnapshot s = true := rfl
@[simp] theorem enabled_wCancel (c : Bool) (s : State) : enabled (.wCancel c) s = s.cancelEnabled c := rfl
@[simp] theorem enabled_reset (s : State) : enabled .reset s = true := rfl

/-- A publish is never a step of its own (R155). -/
@[simp] theorem enabled_sPublish (r : Record) (s : State) : enabled (.sPublish r) s = false := by simp [enabled]

/-- Whether an operation is enabled depends on the parameters, the phase and the queue alone. -/
theorem enabled_congr {s t : State} (hp : t.params = s.params) (hw : t.wphase = s.wphase) (hq : t.queue = s.queue)
    (i : Instr) : enabled i t = enabled i s := by
  cases i <;>
    simp [enabled, State.popEnabled, State.readEnabled, State.decodeEnabled, State.cancelEnabled, hp, hw, hq]

/-- An operation that is the next step is not refused (R150, R155). -/
theorem exec_ne_refused_of_enabled {i : Instr} {s : State} {r : Refusal} (he : enabled i s = true) :
    exec i s ≠ .refused r := by
  intro h
  obtain ⟨q, rfl, -, -⟩ := exec_refused_cases h
  simp at he

/-- One step more of a run. -/
theorem runSteps_succ {s t : State} (h : step s = .next t) (k : Nat) : runSteps (k + 1) s = runSteps k t := by
  simp [runSteps, h]

/-- One step more of what a run gathers. -/
theorem gatherSteps_succ {one : State → List α} {s t : State} (h : step s = .next t) (k : Nat) :
    gatherSteps one (k + 1) s = one s ++ gatherSteps one k t := by
  simp [gatherSteps, h]

/-- Where nothing is scheduled the worker's own step is its next action. -/
theorem ownAction_eq {s : State} (hs : s.script = []) : ownAction s = workerAction s := by simp [ownAction, hs]

/-- Placing a table word keeps the invariant. -/
theorem StateInv.forVariant {s : State} (h : StateInv s) (v : Variant) : StateInv (s.forVariant v) := by
  unfold State.forVariant
  split
  · exact h
  · obtain ⟨h1, h2, h3, h4, h5, h6, h7, h8, h9, h10⟩ := h
    have hq : 1 ≤ s.params.qdepth := by
      simp only [Config.Params.wf, Bool.and_eq_true, decide_eq_true_eq] at h1
      omega
    refine ⟨?_, h2, ?_, fun k => k, fun k => k, .inl rfl, h7, fun c hc => ?_, ?_, h10⟩
    · cases v <;> simp [Config.Params.wf, hq, Config.defaultRecord, Record.variant]
    · cases v <;> rfl
    · exact Nat.lt_of_lt_of_le (h8 c hc) (Nat.le_max_left _ _)
    · exact Nat.le_trans h9 (Nat.le_max_left _ _)

end Sys2Proof.Machine
end

