-- ==== Sys2Proof/Laws/PerInstr.lean ====
section
/-!
SUPPORT. Statements made per instruction. `Selects`: the event of an instruction is selected by the instruction's own row
of the operation map (spec/30_encoding.md R89), and whatever the decoder reads from it belongs to that row.
-/

namespace Sys2Proof.Laws.Selects

/-- The event of an instruction names its row, and decodes to an operation of that row. -/
def Statement (i : Instr) : Prop := (encode i).op = i.op ∧ ∃ j, decode (encode i) = .ok j ∧ j.op = i.op

theorem rcRh (f : RcFrame) : Statement (.rcRh f) := ⟨rfl, _, rfl, rfl⟩
theorem rcRv (f : RcFrame) : Statement (.rcRv f) := ⟨rfl, _, rfl, rfl⟩
theorem rcLh (f : RcFrame) : Statement (.rcLh f) := ⟨rfl, _, rfl, rfl⟩
theorem rcLv (f : RcFrame) : Statement (.rcLv f) := ⟨rfl, _, rfl, rfl⟩
theorem rcSl (f : RcFrame) : Statement (.rcSl f) := ⟨rfl, _, rfl, rfl⟩
theorem rcSr (f : RcFrame) : Statement (.rcSr f) := ⟨rfl, _, rfl, rfl⟩
theorem rcMx (f : RcFrame) : Statement (.rcMx f) := ⟨rfl, _, rfl, rfl⟩
theorem rcMy (f : RcFrame) : Statement (.rcMy f) := ⟨rfl, _, rfl, rfl⟩
theorem rcMz (f : RcFrame) : Statement (.rcMz f) := ⟨rfl, _, rfl, rfl⟩
theorem rcMl (f : RcFrame) : Statement (.rcMl f) := ⟨rfl, _, rfl, rfl⟩
theorem rcMr (f : RcFrame) : Statement (.rcMr f) := ⟨rfl, _, rfl, rfl⟩
theorem rcKb (f : RcFrame) : Statement (.rcKb f) := ⟨rfl, _, rfl, rfl⟩
theorem rcDecode (b : List Byte) : Statement (.rcDecode b) := ⟨rfl, _, rfl, rfl⟩
theorem cpVal (f : CpFrame) : Statement (.cpVal f) := ⟨rfl, _, rfl, rfl⟩
theorem cpDecode (b : List Byte) : Statement (.cpDecode b) := ⟨rfl, _, rfl, rfl⟩
theorem qPush (n : Notification) : Statement (.qPush n) := ⟨rfl, _, rfl, rfl⟩
theorem wPop : Statement .wPop := ⟨rfl, _, rfl, rfl⟩
theorem wRead (answer : List Byte) : Statement (.wRead answer) := ⟨rfl, _, rfl, rfl⟩
theorem wDecode : Statement .wDecode := ⟨rfl, _, rfl, rfl⟩
theorem sPublish (r : Record) : Statement (.sPublish r) := ⟨rfl, _, rfl, rfl⟩
theorem sSnapshot : Statement .sSnapshot := ⟨rfl, _, rfl, rfl⟩
theorem wCancel (cancel : Bool) : Statement (.wCancel cancel) := ⟨rfl, _, rfl, rfl⟩
theorem reset : Statement .reset := ⟨rfl, _, rfl, rfl⟩

end Sys2Proof.Laws.Selects
end

