-- ==== Sys2Proof/Tests/Slice0.lean ====
section
/-!
SUPPORT. Tests. Expected values come from spec/95_test_vectors.md (S, T and P numbers) and from the rules' own corner
cases, worked by hand where no table gives them. The last part shows, for every statement with hypotheses, a concrete
state and operands that meet them.
-/

namespace Sys2Proof.Tests

open Sys2Proof Sys2Proof.Machine

/-- The next state of an outcome, if it is one. -/
def nextOf : Host.Outcome State Fault Refusal → Option State
  | .next s => some s
  | _ => none

/-- The parameters of the scenarios: `QDEPTH = 2`, `SCRATCH_CAP = cap`, cancellation allowed. -/
def paramsOf (v : Variant) (cap : Nat) : Config.Params :=
  { variant := v, qdepth := 2, scratchCap := cap, resetRecord := Config.defaultRecord v, hasCancel := true, myTid := 0 }

/-- A small state: the reset state of an instance with a queue, a phase, a notification in hand and a scratch frame. -/
def small (v : Variant) (cap : Nat) (q : List Notification) (p : WPhase) (cur : Notification) (b : List Byte) : State :=
  { State.init (paramsOf v cap) with
    queue := q, wphase := p, cur := cur, scratch := Memory.writeList [] 0 b, scratchLen := b.length }

/-- Frame W2 of table T7. -/
def w2 : List Byte :=
  [0x00, 0x04, 0x20, 0x00, 0x01, 0x78, 0xFE, 0xFF, 0x2C, 0x01, 0x00, 0x80, 0x01, 0x00, 0x81, 0xAA, 0x55, 0xFF]

/-- Frame W9 of table T7. -/
def w9 : List Byte :=
  [0x12, 0x34, 0x56, 0x78, 0x9A, 0xBC, 0xDE, 0xF0, 0x0F, 0x1E, 0x2D, 0x3C, 0x4B, 0x5A, 0x69, 0x78, 0x87, 0x96]

/-- The record T7 gives for W2. -/
def rec2 : Record := .rc ⟨1024, 1024, 1024, 1024, 1, 3, -2, 300, -32768, 1, 0, 129⟩

/-- The record T7 gives for W9. -/
def rec9 : Record := .rc ⟨1042, 710, 481, 1997, 2, 3, -3874, 7695, 15405, 75, 90, 105⟩

/-- A frame with the six channel bytes given and the rest zero. -/
def frame6 (b0 b1 b2 b3 b4 b5 : Byte) : RcFrame := ⟨b0, b1, b2, b3, b4, b5, 0, 0, 0, 0, 0, 0, 0, 0, 0, 0, 0, 0⟩

/-- The value an extraction puts on the result port. -/
def fieldOf (i : Instr) : Option FieldValue := (nextOf (exec i State.reset)).bind (·.out.field)

/-! ### Well-formedness: one ill-formed term for each check -/

def goodChannels : ChannelState := ⟨2047, 2047, 2047, 2047, 3, 3, -1, -1, -1, 255, 255, 255⟩

theorem test_wf_good : (Record.rc goodChannels).wf = true := by decide
theorem test_wf_rejects_rh : (Record.rc { goodChannels with rh := 2048 }).wf = false := by decide
theorem test_wf_rejects_rv : (Record.rc { goodChannels with rv := 2048 }).wf = false := by decide
theorem test_wf_rejects_lh : (Record.rc { goodChannels with lh := 2048 }).wf = false := by decide
theorem test_wf_rejects_lv : (Record.rc { goodChannels with lv := 2048 }).wf = false := by decide
theorem test_wf_rejects_kb : (Record.rc { goodChannels with kb := 256 }).wf = false := by decide
/-- R89: a frame operation belongs to the instances of its own variant only. -/
theorem test_wf_selects_variant :
    (Instr.rcDecode []).wf .companion = false ∧ (Instr.rcDecode []).wf .rc = true ∧
      (Instr.cpDecode []).wf .rc = false ∧ (Instr.cpDecode []).wf .companion = true ∧
      (Instr.rcKb ⟨0, 0, 0, 0, 0, 0, 0, 0, 0, 0, 0, 0, 0, 0, 0, 0, 0, 0⟩).wf .companion = false ∧
      (Instr.cpVal ⟨0, 0, 0, 0, 0, 0, 0, 0⟩).wf .rc = false ∧
      (Instr.sPublish (.companion ⟨0⟩)).wf .rc = false := by decide
theorem test_wf_params : (paramsOf .rc 18).wf = true ∧ (paramsOf .companion 8).wf = true := by decide
theorem test_wf_rejects_qdepth : ({ paramsOf .rc 18 with qdepth := 0 } : Config.Params).wf = false := by decide
theorem test_wf_rejects_scratchCap : (paramsOf .rc 17).wf = false := by decide
theorem test_wf_rejects_resetVariant :
    ({ paramsOf .rc 18 with resetRecord := .companion ⟨0⟩ } : Config.Params).wf = false := by decide
/-- R8 leaves the values of the fields of `RESET_RECORD` open. -/
theorem test_wf_admits_resetRecord :
    ({ paramsOf .rc 18 with resetRecord := .rc { goodChannels with rh := 2048 } } : Config.Params).wf = true := by decide

/-! ### Decoding: the bytes of W1 (T7) at each port of format RC18, and every other port -/

def w1 : List Byte := [0x00, 0x04, 0x20, 0x00, 0x01, 0xD8, 0, 0, 0, 0, 0, 0, 0, 0, 0, 0, 0, 0]

theorem test_decode_axes :
    (decode ⟨.rcRh, .bytes w1⟩).toOption = some (.rcRh (frame6 0 4 0x20 0 1 0xD8)) ∧
    (decode ⟨.rcRv, .bytes w1⟩).toOption = some (.rcRv (frame6 0 4 0x20 0 1 0xD8)) ∧
    (decode ⟨.rcLh, .bytes w1⟩).toOption = some (.rcLh (frame6 0 4 0x20 0 1 0xD8)) ∧
    (decode ⟨.rcLv, .bytes w1⟩).toOption = some (.rcLv (frame6 0 4 0x20 0 1 0xD8)) := by decide

theorem test_decode_switches_and_mouse :
    (decode ⟨.rcSl, .bytes w1⟩).toOption = some (.rcSl (frame6 0 4 0x20 0 1 0xD8)) ∧
    (decode ⟨.rcSr, .bytes w1⟩).toOption = some (.rcSr (frame6 0 4 0x20 0 1 0xD8)) ∧
    (decode ⟨.rcMx, .bytes w1⟩).toOption = some (.rcMx (frame6 0 4 0x20 0 1 0xD8)) ∧
    (decode ⟨.rcMy, .bytes w1⟩).toOption = some (.rcMy (frame6 0 4 0x20 0 1 0xD8)) ∧
    (decode ⟨.rcMz, .bytes w1⟩).toOption = some (.rcMz (frame6 0 4 0x20 0 1 0xD8)) := by decide

theorem test_decode_buttons_and_keyboard :
    (decode ⟨.rcMl, .bytes w1⟩).toOption = some (.rcMl (frame6 0 4 0x20 0 1 0xD8)) ∧
    (decode ⟨.rcMr, .bytes w1⟩).toOption = some (.rcMr (frame6 0 4 0x20 0 1 0xD8)) ∧
    (decode ⟨.rcKb, .bytes w1⟩).toOption = some (.rcKb (frame6 0 4 0x20 0 1 0xD8)) ∧
    (decode ⟨.rcKb, .bytes (w1.take 17)⟩).toOption = none := by decide

theorem test_decode_companion :
    (decode ⟨.cpVal, .bytes [0x11, 0x22, 0xFF, 0x44, 0x55, 0x66, 0x77, 0x88]⟩).toOption =
      some (.cpVal ⟨0x11, 0x22, 0xFF, 0x44, 0x55, 0x66, 0x77, 0x88⟩) ∧
    (decode ⟨.cpDecode, .bytes [0, 0, 0x2A]⟩).toOption = some (.cpDecode [0, 0, 0x2A]) := by decide

theorem test_decode_ports :
    (decode ⟨.qPush, .note ⟨3, 5⟩⟩).toOption = some (.qPush ⟨3, 5⟩) ∧
    (decode ⟨.wPop, .strobe⟩).toOption = some .wPop ∧
    (decode ⟨.wRead, .bytes [0xFF]⟩).toOption = some (.wRead [0xFF]) ∧
    (decode ⟨.wDecode, .strobe⟩).toOption = some .wDecode ∧
    (decode ⟨.sPublish, .record rec2⟩).toOption = some (.sPublish rec2) ∧
    (decode ⟨.sSnapshot, .strobe⟩).toOption = some .sSnapshot ∧
    (decode ⟨.wCancel, .level true⟩).toOption = some (.wCancel true) ∧
    (decode ⟨.reset, .strobe⟩).toOption = some .reset ∧
    (decode ⟨.reset, .level true⟩).toOption = none := by decide

/-- The frame integer of W9 as spec/95 section 2 prints it, most significant byte first. -/
theorem test_decode_word_w9 : decodeTableWord 144 0x968778695A4B3C2D1E0FF0DEBC9A78563412 = some (.rcDecode w9) := by
  decide

/-- `VAL = F[23:16]` (R85): the byte 0x2A at frame bits 23:16 of a companion frame. -/
theorem test_decode_word_companion :
    decodeTableWord 64 0x2A0000 = some (.cpDecode [0, 0, 0x2A, 0, 0, 0, 0, 0]) := by decide

/-- The 23 mnemonics, in the order of R89. -/
theorem test_mnemonics :
    [Op.rcRh, .rcRv, .rcLh, .rcLv, .rcSl, .rcSr, .rcMx, .rcMy, .rcMz, .rcMl, .rcMr, .rcKb, .rcDecode, .cpVal, .cpDecode,
      .qPush, .wPop, .wRead, .wDecode, .sPublish, .sSnapshot, .wCancel, .reset].map Op.mnemonic =
    ["RC.RH", "RC.RV", "RC.LH", "RC.LV", "RC.SL", "RC.SR", "RC.MX", "RC.MY", "RC.MZ", "RC.ML", "RC.MR", "RC.KB",
      "RC.DECODE", "CP.VAL", "CP.DECODE", "Q.PUSH", "W.POP", "W.READ", "W.DECODE", "S.PUBLISH", "S.SNAPSHOT", "W.CANCEL",
      "RESET"] := by decide

/-! ### The extractions (tables T1, T2, T5, T6; rows named) -/

theorem test_rh : fieldOf (.rcRh (frame6 0x94 0x06 0 0 0 0)) = some (.rh 1940) ∧
    fieldOf (.rcRh (frame6 0 0xF8 0 0 0 0)) = some (.rh 0) := by decide -- A24, R111
theorem test_rv : fieldOf (.rcRv (frame6 0x6C 0xA1 0x34 0x5B 0x28 0x6D)) = some (.rv 2036) ∧
    fieldOf (.rcRv (frame6 0 0x07 0xC0 0 0 0)) = some (.rv 0) := by decide -- Q17, R112
theorem test_lh : fieldOf (.rcLh (frame6 0 0 0x80 0 0 0)) = some (.lh 2046) ∧
    fieldOf (.rcLh (frame6 0x94 0x66 0x0B 0xA5 0xD9 0x62)) = some (.lh 1684) := by decide -- Q7, Q18
theorem test_lv : fieldOf (.rcLv (frame6 0 4 0x20 0 0x81 8)) = some (.lv 1984) ∧
    fieldOf (.rcLv (frame6 0 0 0 0 0 0xF0)) = some (.lv 0) := by decide -- Q21, R114
theorem test_sl : fieldOf (.rcSl (frame6 0 0 0 0 0 0x8F)) = some (.sl 2) ∧
    fieldOf (.rcSl (frame6 0 0 0 0 0 0x30)) = some (.sl 0) := by decide -- T5, S3
theorem test_sr : fieldOf (.rcSr (frame6 0 0 0 0 0 0x30)) = some (.sr 3) ∧
    fieldOf (.rcSr (frame6 0 0 0 0 0 0xCF)) = some (.sr 0) := by decide -- S3, T5
theorem test_mx : fieldOf (.rcMx ⟨0, 0, 0, 0, 0, 0, 0x80, 0, 0, 0, 0, 0, 0, 0, 0, 0, 0, 0⟩) = some (.mx 128) := by decide
theorem test_my : fieldOf (.rcMy ⟨0, 0, 0, 0, 0, 0, 0, 0, 0x2C, 0x01, 0, 0, 0, 0, 0, 0, 0, 0⟩) = some (.my 300) := by decide
theorem test_mz : fieldOf (.rcMz ⟨0, 0, 0, 0, 0, 0, 0, 0, 0, 0, 0x80, 0x80, 0, 0, 0, 0, 0, 0⟩) = some (.mz (-32640)) := by
  decide
theorem test_ml : fieldOf (.rcMl ⟨0, 0, 0, 0, 0, 0, 0, 0, 0, 0, 0, 0, 0x02, 0x80, 0, 0, 0, 0⟩) = some (.ml 2) := by decide
theorem test_mr : fieldOf (.rcMr ⟨0, 0, 0, 0, 0, 0, 0, 0, 0, 0, 0, 0, 0x02, 0x80, 0, 0, 0, 0⟩) = some (.mr 128) := by decide
theorem test_kb : fieldOf (.rcKb ⟨0, 0, 0, 0, 0, 0, 0, 0, 0, 0, 0, 0, 0, 0, 0x81, 0xAA, 0, 0⟩) = some (.kb 129) := by decide
theorem test_val : fieldOf (.cpVal ⟨0x11, 0x22, 0xFF, 0x44, 0x55, 0x66, 0x77, 0x88⟩) = some (.val (-1)) ∧
    (-1 : Byte).toInt = -1 := by decide -- T9
theorem test_pressed : pressed 0x80 = true ∧ pressed 0 = false := by decide -- T6

/-! ### The decoders and the pipeline (T7, T8, T10, P1 to P6) -/

theorem test_rcDecode : rcDecodeFrame .signed w9 = .ok rec9 ∧ rcDecodeFrame .signed (w9.take 17) = .lengthMismatch := by
  decide
/-- W7, and its unsigned reading from the last column of T7. -/
theorem test_rcDecode_quirk :
    rcDecodeFrame .signed (List.replicate 18 0xAA) =
      .ok (.rc ⟨1962, 2037, 2046, 2005, 2, 2, -21846, -21846, -21846, 170, 170, 170⟩) ∧
    (channelState .unsigned (frame6 0xAA 0xAA 0xAA 0xAA 0xAA 0xAA)).rv = 1365 := by decide
theorem test_cpDecode : cpDecodeFrame [0x00, 0x04, 0x20, 0x00, 0x01, 0xD8, 0x00, 0x00] = .ok (.companion ⟨32⟩) ∧
    cpDecodeFrame [0, 0, 0x7F] = .lengthMismatch := by decide

theorem test_push_accepted :
    (nextOf (exec (.qPush ⟨3, 5⟩) (small .rc 18 [⟨0, 18⟩] .wait ⟨0, 0⟩ []))).map (fun t => (t.queue, t.out.pushOk)) =
      some ([⟨0, 18⟩, ⟨3, 5⟩], some true) := by decide
theorem test_push_overflow :
    (nextOf (exec (.qPush ⟨0, 0⟩) (small .rc 18 [⟨0, 18⟩, ⟨3, 5⟩] .wait ⟨0, 0⟩ []))).map
        (fun t => (t.queue, t.out.pushOk, t.sink)) =
      some ([⟨0, 18⟩, ⟨3, 5⟩], some false, [⟨.queueOverflow, 0, 0⟩]) := by decide
theorem test_pop :
    (nextOf (exec .wPop (small .rc 18 [⟨0, 18⟩, ⟨3, 5⟩] .wait ⟨0, 0⟩ []))).map (fun t => (t.queue, t.cur, t.wphase)) =
      some ([⟨3, 5⟩], ⟨0, 18⟩, .read) := by decide
theorem test_pop_not_enabled :
    exec .wPop (small .rc 18 [⟨3, 5⟩] .read ⟨0, 0⟩ []) = .next (small .rc 18 [⟨3, 5⟩] .read ⟨0, 0⟩ []) := rfl
/-- P3: a short read leaves the byte above it. -/
theorem test_read_short :
    (nextOf (exec (.wRead [0xFF, 0xFF]) (small .rc 32 [] .read ⟨0, 17⟩ [1, 2, 3]))).map
        (fun t => (Memory.readList t.scratch 0 4, t.scratchLen, t.wphase, t.out.trReq)) =
      some ([0xFF, 0xFF, 3, 0], 2, .decode, some ⟨0, 0, 17⟩) := by decide
/-- P4: an oversized announcement asks for `SCRATCH_CAP` bytes. -/
theorem test_read_bounded :
    (nextOf (exec (.wRead [0, 4, 32, 0, 1, 0xD8, 0, 0]) (small .companion 8 [] .read ⟨1, 18⟩ []))).map
        (fun t => (t.scratchLen, t.out.trReq)) = some (8, some ⟨1, 0, 8⟩) := by decide
theorem test_decode_publish :
    (nextOf (exec .wDecode (small .rc 18 [] .decode ⟨0, 18⟩ w2))).map (fun t => (t.cs, t.wphase, t.sink)) =
      some (rec2, .wait, []) := by decide
theorem test_decode_mismatch :
    (nextOf (exec .wDecode (small .companion 18 [] .decode ⟨1, 3⟩ [0, 0, 0x7F]))).map (fun t => (t.cs, t.wphase, t.sink)) =
      some (.companion ⟨0⟩, .wait, [⟨.lengthMismatch, 1, 3⟩]) := by decide
theorem test_publish :
    (nextOf (exec (.sPublish rec2) (small .rc 18 [] .wait ⟨0, 0⟩ []))).map (·.cs) = some rec2 := by decide
/-- R155 and R156: a publish is no step of its own, so a snapshot between W.READ and W.DECODE shows the old record. -/
theorem test_publish_is_no_step :
    step { small .rc 18 [] .decode ⟨0, 18⟩ w2 with script := [encode (.sPublish rec2)] } =
      .next (small .rc 18 [] .decode ⟨0, 18⟩ w2) := rfl
/-- R89: an RC instance has no CP.DECODE. -/
theorem test_variant_selects_decoder :
    step { small .rc 18 [] .wait ⟨0, 0⟩ [] with script := [encode (.cpDecode [0, 0, 0x2A, 0, 0, 0, 0, 0])] } =
      .next (small .rc 18 [] .wait ⟨0, 0⟩ []) := rfl
theorem test_snapshot :
    (nextOf (exec .sSnapshot State.reset)).map (·.out.snapOut) =
      some (some (.rc ⟨1024, 1024, 1024, 1024, 0, 0, 0, 0, 0, 0, 0, 0⟩)) := by decide
theorem test_cancel :
    (nextOf (exec (.wCancel true) (small .rc 18 [⟨0, 18⟩] .wait ⟨0, 0⟩ []))).map (fun t => (t.halted, t.queue)) =
      some (true, [⟨0, 18⟩]) := by decide
theorem test_cancel_busy :
    exec (.wCancel true) (small .rc 18 [] .read ⟨0, 0⟩ []) = .next (small .rc 18 [] .read ⟨0, 0⟩ []) := rfl
theorem test_reset :
    (nextOf (exec .reset (small .rc 18 [⟨0, 18⟩] .halt ⟨0, 18⟩ w2))).map (fun t => (t.queue, t.wphase, t.sink, t.cs)) =
      some ([], .wait, [], Config.defaultRecord .rc) := by decide
theorem test_event_codes : Condition.queueOverflow.code = 1 ∧ Condition.lengthMismatch.code = 2 := by decide
/-- P7: X's full queue does not affect Y. -/
theorem test_two_instances :
    (match System.step .y { System.reset with y := { System.reset.y with script := [⟨.qPush, .note ⟨1, 8⟩⟩] } } with
      | .next m => (m.y.queue, m.x.queue)
      | _ => ([], [])) = ([⟨1, 8⟩], []) := by decide

/-! ### Witnesses: states and operands that meet the hypotheses of the statements -/

/-- A state of the invariant for each phase. -/
theorem witness_stateInv (v : Variant) (q : List Notification) (hq : q.length ≤ 2) (p : WPhase) (b : List Byte)
    (hb : Memory.wf (Memory.writeList [] 0 b)) (hw : Memory.within 18 (Memory.writeList [] 0 b)) (hl : b.length ≤ 18) :
    StateInv (small v 18 q p ⟨0, 18⟩ b) :=
  ⟨by cases v <;> rfl, hq, by cases v <;> rfl, fun h => h, fun h => h, .inl rfl, hb, hw, hl, fun _ => rfl⟩

theorem witness_StepRunsTheScheduledOperation :
    let s := { small .rc 18 [] .wait ⟨0, 0⟩ [] with script := [encode (.qPush ⟨0, 18⟩)] }
    let t := { small .rc 18 [] .wait ⟨0, 0⟩ [] with script := [encode .wPop] }
    s.script = encode (.qPush ⟨0, 18⟩) :: [] ∧ decode (encode (.qPush ⟨0, 18⟩)) = .ok (.qPush ⟨0, 18⟩) ∧
      enabled (.qPush ⟨0, 18⟩) { s with script := [] } = true ∧
      t.script = encode .wPop :: [] ∧ decode (encode .wPop) = .ok .wPop ∧ enabled .wPop { t with script := [] } = false :=
  ⟨rfl, rfl, rfl, rfl, rfl, rfl⟩

theorem witness_StepRefusesWhatIsNoOperation : decode ⟨.wPop, .level true⟩ = .error (.wrongPayload .wPop) := rfl

theorem witness_OperationsAreSelectedByVariantAndPhase :
    (Instr.rcDecode []).op ∈ [Op.rcDecode] ∧ enabled (.rcDecode []) (small .rc 18 [] .wait ⟨0, 0⟩ []) = true ∧
      enabled (.rcDecode []) (small .companion 18 [] .wait ⟨0, 0⟩ []) = false ∧
      enabled (.cpDecode []) (small .companion 18 [] .wait ⟨0, 0⟩ []) = true := by decide

/-- A word of each format, on an instance of the variant that selects it and on one of the other. -/
theorem witness_FetchedWordRunsNext :
    decodeTableWord 64 0 = some (.cpDecode [0, 0, 0, 0, 0, 0, 0, 0]) ∧ State.reset.params.variant ≠ tableVariant 64 ∧
      State.reset.params.variant = tableVariant 144 ∧
      (nextOf (step (State.reset.withFetchWord 64 0x2A0000))).map (·.out.decoded) =
        some (some (.ok (.companion ⟨0x2A⟩))) := by decide

theorem witness_IdleStepIsTheWorkersOwn :
    (small .rc 18 [⟨0, 18⟩] .wait ⟨0, 0⟩ []).script = [] ∧ (small .rc 18 [⟨0, 18⟩] .wait ⟨0, 0⟩ []).queue ≠ [] ∧
      (small .rc 18 [] .read ⟨0, 0⟩ []).wphase = .read ∧ (small .rc 18 [] .decode ⟨0, 0⟩ []).wphase = .decode ∧
      (small .rc 18 [] .wait ⟨0, 0⟩ []).queue = [] ∧ (small .rc 18 [] .halt ⟨0, 0⟩ []).wphase = .halt := by decide

theorem witness_lengths : w9.length = 18 ∧ (w9.take 17).length ≠ 18 ∧ (w9 ++ [0]).length ≠ 18 ∧
    ([0, 0, 42, 0, 0, 0, 0, 0] : List Byte).length = 8 ∧ ([] : List Byte).length ≠ 8 := by decide

theorem witness_UnusedBytesAffectNothing :
    w2.length = 18 ∧ (w2.take 15 ++ [0, 0, 0]).length = 18 ∧ w2.take 15 = (w2.take 15 ++ [0, 0, 0]).take 15 ∧
      (frame6 0 4 0x20 0 1 0x78).toBytes.take 6 = w2.take 6 := by decide

theorem witness_WideningReadingsAgree :
    (0x7F : Byte).toNat < 0x80 ∧ (0x7F : Byte).msb = false ∧ (0x80 : Byte).msb = true := by decide

theorem witness_IntermediateWidthDoesNotMatter :
    16 ≤ 32 ∧ (frame6 0 0 0x80 0 0 0).b2.msb = true ∧ (frame6 0 0 0x80 0 0 0).b3.msb = false ∧
      (frame6 0 0 0x80 0 0 0).b4.getLsbD 0 = false := by decide

theorem witness_PushAppendsOrOverflows :
    (small .rc 18 [⟨0, 18⟩] .wait ⟨0, 0⟩ []).queue.length < (small .rc 18 [⟨0, 18⟩] .wait ⟨0, 0⟩ []).params.qdepth ∧
      (small .rc 18 [⟨0, 18⟩, ⟨0, 18⟩] .wait ⟨0, 0⟩ []).params.qdepth ≤
        (small .rc 18 [⟨0, 18⟩, ⟨0, 18⟩] .wait ⟨0, 0⟩ []).queue.length := by decide

theorem witness_PushDependsOnOccupancyAlone :
    (small .rc 18 [⟨0, 18⟩] .wait ⟨0, 0⟩ []).queue.length = (small .companion 8 [⟨1, 8⟩] .halt ⟨5, 5⟩ [1]).queue.length ∧
      (small .rc 18 [⟨0, 18⟩] .wait ⟨0, 0⟩ []).params.qdepth =
        (small .companion 8 [⟨1, 8⟩] .halt ⟨5, 5⟩ [1]).params.qdepth := by decide

theorem witness_PopTakesTheOldest :
    (small .rc 18 [⟨0, 18⟩] .wait ⟨0, 0⟩ []).queue = ⟨0, 18⟩ :: [] ∧ (small .rc 18 [] .halt ⟨0, 0⟩ []).wphase ≠ .wait := by
  decide

theorem witness_ReadFillsTheScratchBuffer :
    Memory.wf (small .rc 18 [] .read ⟨0, 18⟩ [1, 2]).scratch ∧ (small .rc 18 [] .read ⟨0, 18⟩ [1, 2]).wphase = .read ∧
      w9.length ≤ min (small .rc 18 [] .read ⟨0, 18⟩ [1, 2]).cur.len 18 := by decide

theorem witness_DecodePublishesOrReports :
    (small .rc 18 [] .decode ⟨0, 18⟩ w9).wphase = .decode ∧ (small .rc 18 [] .decode ⟨0, 18⟩ w9).scratchLen ≤ 18 ∧
      (small .rc 18 [] .decode ⟨0, 18⟩ w9).scratchLen = Config.frameLen .rc ∧
      (small .companion 18 [] .decode ⟨0, 18⟩ w9).scratchLen ≠ Config.frameLen .companion := by decide

theorem witness_DecodeOutsideItsPhaseOrBuffer :
    (small .rc 17 [] .wait ⟨0, 18⟩ w9).wphase ≠ .decode ∧ (small .rc 17 [] .decode ⟨0, 18⟩ w9).wphase = .decode ∧
      (small .rc 17 [] .decode ⟨0, 18⟩ w9).params.scratchCap < (small .rc 17 [] .decode ⟨0, 18⟩ w9).scratchLen := by decide

theorem witness_PublishReplacesTheWholeRecord :
    rec2.variant = (small .rc 18 [] .decode ⟨0, 18⟩ w2).params.variant ∧
      rec2.variant ≠ (small .companion 18 [] .decode ⟨0, 18⟩ w2).params.variant := by decide

theorem witness_CancelHaltsTheWaitingWorker :
    (small .rc 18 [] .wait ⟨0, 0⟩ []).params.hasCancel = true ∧ (small .rc 18 [] .wait ⟨0, 0⟩ []).wphase = .wait ∧
      State.reset.params.hasCancel = false := by decide

theorem witness_PureOperationsChangeNoState :
    (∀ n, Instr.sSnapshot ≠ .qPush n) ∧ Instr.sSnapshot ≠ .wPop ∧ (∀ a, Instr.sSnapshot ≠ .wRead a) ∧
      Instr.sSnapshot ≠ .wDecode ∧ (∀ r, Instr.sSnapshot ≠ .sPublish r) ∧ (∀ c, Instr.sSnapshot ≠ .wCancel c) ∧
      Instr.sSnapshot ≠ .reset :=
  ⟨nofun, nofun, nofun, nofun, nofun, nofun, nofun⟩

/-- Every kind of operation answers a next state somewhere; the pop, the read, the decode and the cancel change the phase,
the decode and the publish the store, the push and the decode the sink. -/
theorem witness_next_states :
    (nextOf (exec .wPop (small .rc 18 [⟨0, 18⟩] .wait ⟨0, 0⟩ []))).map (·.wphase) = some .read ∧
    (nextOf (exec (.wRead [1]) (small .rc 18 [] .read ⟨0, 18⟩ []))).map (·.wphase) = some .decode ∧
    (nextOf (exec .wDecode (small .rc 18 [] .decode ⟨0, 18⟩ w2))).map (·.cs) = some rec2 ∧
    (nextOf (exec .wDecode (small .rc 18 [] .decode ⟨0, 18⟩ [1]))).map (·.sink) = some [⟨.lengthMismatch, 0, 1⟩] ∧
    (nextOf (exec (.sPublish rec2) (small .rc 18 [] .decode ⟨0, 18⟩ w2))).map (·.cs) = some rec2 ∧
    (nextOf (exec (.wCancel true) (small .rc 18 [] .wait ⟨0, 0⟩ []))).map (·.wphase) = some .halt ∧
    (nextOf (exec .reset (small .rc 18 [] .halt ⟨0, 0⟩ []))).map (·.wphase) = some .wait ∧
    (nextOf (exec (.qPush ⟨0, 7⟩) (small .rc 18 [⟨0, 18⟩, ⟨0, 18⟩] .wait ⟨0, 0⟩ []))).map (·.sink) =
      some [⟨.queueOverflow, 0, 7⟩] := by decide

/-- The premises of the two last clauses about the sink, each with its next state in `witness_next_states`, and an enabled
operation that changes the store. -/
theorem witness_TheSinkOnlyGrows_and_store :
    (small .rc 18 [⟨0, 18⟩, ⟨0, 18⟩] .wait ⟨0, 0⟩ []).params.qdepth ≤
        (small .rc 18 [⟨0, 18⟩, ⟨0, 18⟩] .wait ⟨0, 0⟩ []).queue.length ∧
      (small .rc 18 [] .decode ⟨0, 18⟩ [1]).wphase = .decode ∧
      (small .rc 18 [] .decode ⟨0, 18⟩ [1]).scratchLen ≠ Config.frameLen .rc ∧
      enabled .wDecode (small .rc 18 [] .decode ⟨0, 18⟩ w2) = true ∧
      enabled .reset (small .rc 18 [] .decode ⟨0, 18⟩ w2) = true := by decide

theorem witness_contexts :
    contextOf (.qPush ⟨0, 18⟩) = .completion ∧ contextOf .wPop = .worker ∧ contextOf .sSnapshot = .reader := by decide

theorem witness_InvariantHoldsAfterReset :
    Config.Params.companionLink.wf = true ∧
      ({ paramsOf .rc 18 with qdepth := 1, resetRecord := .rc { goodChannels with rh := 0xFFFF } } : Config.Params).wf = true := by
  decide

theorem witness_StepKeepsTheInvariant :
    StateInv (small .rc 18 [⟨0, 18⟩] .wait ⟨0, 18⟩ w9) ∧
      (nextOf (step (small .rc 18 [⟨0, 18⟩] .wait ⟨0, 18⟩ w9))).map (·.wphase) = some .read :=
  ⟨witness_stateInv .rc _ (by decide) _ _ (by decide) (by decide) (by decide), by decide⟩

theorem witness_WorkerReturnsToTheWait : (small .rc 18 [] .read ⟨0, 18⟩ []).wphase = .read := rfl

theorem witness_HaltedUntilReset :
    (small .rc 18 [⟨0, 18⟩] .halt ⟨0, 0⟩ []).halted = true ∧
      (∀ i ∈ [Instr.qPush ⟨0, 7⟩, .wPop], i ≠ .reset) ∧
      (nextOf (runAll [.qPush ⟨0, 7⟩, .wPop] (small .rc 18 [⟨0, 18⟩] .halt ⟨0, 0⟩ []))).map (·.queue) =
        some [⟨0, 18⟩, ⟨0, 7⟩] := by decide

/-- The beginning of P2: a run without `RESET` that accepts, refuses, pops and publishes. -/
theorem witness_runs :
    (nextOf (runAll [.qPush ⟨0, 18⟩, .qPush ⟨0, 18⟩, .qPush ⟨0, 18⟩, .wPop, .wRead w2, .wDecode]
        (small .rc 18 [] .wait ⟨0, 0⟩ []))).map (fun t => (t.queue, t.sink, t.cs)) =
      some ([⟨0, 18⟩], [⟨.queueOverflow, 0, 18⟩], rec2) := by decide

theorem witness_AcceptedNotificationsAreProcessed :
    StateInv (small .rc 18 [⟨0, 18⟩] .decode ⟨0, 18⟩ w9) ∧ (small .rc 18 [⟨0, 18⟩] .decode ⟨0, 18⟩ w9).script = [] ∧
      (small .rc 18 [⟨0, 18⟩] .decode ⟨0, 18⟩ w9).halted = false :=
  ⟨witness_stateInv .rc _ (by decide) _ _ (by decide) (by decide) (by decide), rfl, rfl⟩

theorem witness_UnspecifiedStateIsNeverObserved :
    Memory.wf (small .rc 18 [⟨0, 18⟩] .wait ⟨0, 0⟩ []).scratch ∧ Memory.wf (small .rc 18 [⟨0, 18⟩] .wait ⟨9, 9⟩ w9).scratch ∧
      Indistinct (small .rc 18 [⟨0, 18⟩] .wait ⟨0, 0⟩ []) (small .rc 18 [⟨0, 18⟩] .wait ⟨9, 9⟩ w9) :=
  ⟨by decide, by decide, ⟨rfl, rfl, rfl, rfl, rfl, rfl, by decide, by decide, by decide⟩⟩

theorem witness_FrameIntegerBits : 0 < 8 * w9.length ∧ 143 < 8 * w9.length ∧ ¬ 144 < 8 * w9.length := by decide

/-- Both sides of the sign boundary, for a byte and for the high byte of a mouse field, and the ends of the shift range. -/
theorem witness_boundaries :
    (0x7F : Byte).toNat < 128 ∧ ¬ (0x80 : Byte).toNat < 128 ∧ (sext16 0x7F).toInt = 127 ∧ (sext16 0x80).toInt = -128 ∧
      shl16 0x8001 15 = 0x8000 ∧ asr16 0x8000 15 = 0xFFFF ∧ lsr16 0x8000 15 = 1 ∧ asr16 0x8001 0 = 0x8001 := by decide

theorem witness_WideningReadingsAgree_all_below :
    channelState .signed (frame6 0x7F 0x7F 0x7F 0x7F 0x7F 0xFF) = channelState .unsigned (frame6 0x7F 0x7F 0x7F 0x7F 0x7F 0xFF) := by
  decide

theorem witness_ReadTakesNoMoreThanAsked :
    (small .rc 18 [] .wait ⟨0, 18⟩ []).wphase ≠ .read ∧
      (w9.take (min (small .rc 18 [] .read ⟨0, 3⟩ []).cur.len 18)).length = 3 := by decide

theorem witness_CancelHaltsTheWaitingWorker_disabled :
    State.reset.params.hasCancel = false ∧ (small .rc 18 [] .read ⟨0, 0⟩ []).wphase ≠ .wait := by decide

theorem witness_PackedNoteIsThePair : (3 : Nat) < 2 ^ 2 ∧ (18 : Nat) < 2 ^ 5 ∧
    (Notification.pack 5 ⟨3, 18⟩) = 3 * 32 + 18 := by decide

end Sys2Proof.Tests
end

section
/-!
SUPPORT. What one operation of a run does (`attempt`), and how `runAll` and `gather` go on after it.
-/

namespace Sys2Proof.Machine

/-- One operation of a run: it happens where it is enabled and changes nothing where it is not (R150). -/
def attempt (i : Instr) (s : State) : Host.Outcome State Fault Refusal := if enabled i s then exec i s else .next s

theorem attempt_next_iff {i : Instr} {s t : State} :
    attempt i s = .next t ↔ enabled i s = true ∧ exec i s = .next t ∨ enabled i s = false ∧ t = s := by
  cases hi : enabled i s <;> simp [attempt, hi, eq_comm]

/-- A run that answers a next state went through the next state of its first operation. -/
theorem runAll_cons_next_iff {i : Instr} {is : List Instr} {s t : State} :
    runAll (i :: is) s = .next t ↔ ∃ u, attempt i s = .next u ∧ runAll is u = .next t := by
  rw [runAll, ← attempt]
  cases attempt i s <;> simp

/-- What a run gathers: what its first operation adds, then what the rest of the run does. -/
theorem gather_cons {one : Instr → State → List α} {i : Instr} {s u : State} (h : attempt i s = .next u)
    (is : List Instr) : gather one (i :: is) s = one i s ++ gather one is u := by
  rw [gather, ← attempt, h]

end Sys2Proof.Machine
end

section
/-!
The store along a run (R66): `cs` is the record of the latest publish, or what it was at the start.
-/

namespace Sys2Proof.Machine

/-- The record that is the published one after `published`, in that order, where `start` was it before (R66). -/
def latestOr (start : Record) (published : List Record) : Record := published.getLast?.getD start

@[simp] theorem latestOr_nil (r : Record) : latestOr r [] = r := rfl

@[simp] theorem latestOr_singleton (r q : Record) : latestOr r [q] = q := rfl

theorem latestOr_append (r : Record) (first second : List Record) :
    latestOr r (first ++ second) = latestOr (latestOr r first) second := by
  simp only [latestOr, List.getLast?_append, Option.getD_or]

theorem publishedBy_of_pureOp {i : Instr} (hi : pureOp i = true) (s : State) : publishedBy i s = [] := by
  cases i
  case wDecode | reset => cases hi
  all_goals rfl

theorem publishedBy_wDecode_ok {s : State} {r : Record} (phase : s.wphase = .decode)
    (ok : s.scratchDecoded = some (.ok r)) : publishedBy .wDecode s = [r] := by
  simp [publishedBy, phase, ok]

theorem publishedBy_wDecode_mismatch {s : State} (bad : s.scratchDecoded = some .lengthMismatch) :
    publishedBy .wDecode s = [] := by
  simp [publishedBy, bad]

theorem publishedBy_of_not_enabled {i : Instr} {s : State} (off : enabled i s = false) : publishedBy i s = [] := by
  cases i
  case wDecode =>
    have hphase : s.wphase ≠ .decode := fun h => by simp [(State.decodeEnabled_iff s).2 h] at off
    simp [publishedBy, hphase]
  case reset => simp at off
  all_goals rfl

/-- An enabled operation leaves as the store what it publishes, or what the store was. -/
theorem exec_cs_of_enabled {i : Instr} {s t : State} (on : enabled i s = true) (h : exec i s = .next t) :
    t.cs = latestOr s.cs (publishedBy i s) := by
  cases exec_effect h with
  | output _ o hi => simp [publishedBy_of_pureOp hi]
  | published r phase ok => simp [publishedBy_wDecode_ok phase ok]
  | discarded _ bad => simp [publishedBy_wDecode_mismatch bad]
  | stored r => simp at on
  | notEnabled _ off => simp [publishedBy_of_not_enabled off]
  | restarted => rfl
  | accepted | overflowed | popped | read | cancelled => rfl

/-- One operation of a run keeps the store at the latest publish. -/
theorem attempt_cs {i : Instr} {s t : State} (h : attempt i s = .next t) :
    t.cs = latestOr s.cs (publishedBy i s) := by
  obtain ⟨on, h⟩ | ⟨off, rfl⟩ := attempt_next_iff.1 h
  · exact exec_cs_of_enabled on h
  · rw [publishedBy_of_not_enabled off, latestOr_nil]

/-- The store at the end of a run holds the latest publish of the run, or the record the run began with (R66). -/
theorem runAll_cs {is : List Instr} {s t : State} (h : runAll is s = .next t) :
    t.cs = latestOr s.cs (gather publishedBy is s) := by
  induction is generalizing s with
  | nil =>
    cases h
    rfl
  | cons i is ih =>
    obtain ⟨u, hi, hrest⟩ := runAll_cons_next_iff.1 h
    calc t.cs = latestOr u.cs (gather publishedBy is u) := ih hrest
      _ = latestOr (latestOr s.cs (publishedBy i s)) (gather publishedBy is u) := by rw [attempt_cs hi]
      _ = latestOr s.cs (gather publishedBy (i :: is) s) := by rw [gather_cons hi, latestOr_append]

/-- Settles O49: the snapshot answers the store, which `runAll_cs` says is the latest publish of the run. -/
theorem snapshotReturnsTheLatestPublish : Obligations.SnapshotReturnsTheLatestPublish := by
  intro is s t h
  exact ⟨_, rfl, congrArg some (runAll_cs h)⟩

end Sys2Proof.Machine
end

section
/-!
SUPPORT. Bit ranges of the widened, shifted and masked intermediates, for the axis extractions (R11, R12, R111 to R114).
-/

namespace Sys2Proof.Machine

/-- The axis mask keeps every range within bits 10:0. -/
theorem extractLsb'_and_axisMask {start len : Nat} (h : start + len ≤ 11) (v : Half) :
    (v &&& Config.axisMask).extractLsb' start len = v.extractLsb' start len := by
  have mask : Config.axisMask = (BitVec.allOnes 11).setWidth 16 := by decide
  refine BitVec.eq_of_getLsbD_eq fun i hi => ?_
  simp only [mask, BitVec.getLsbD_extractLsb', BitVec.getLsbD_and, BitVec.getLsbD_setWidth, BitVec.getLsbD_allOnes,
    show start + i < 16 by omega, show start + i < 11 by omega, decide_true, Bool.and_true]

/-- An arithmetic right shift moves a range that ends below the sign copies down by `k`. -/
theorem extractLsb'_asr16 {k start len : Nat} (h : k + start + len ≤ 16) (v : Half) :
    (asr16 v k).extractLsb' start len = v.extractLsb' (k + start) len := by
  refine BitVec.eq_of_getLsbD_eq fun i hi => ?_
  simp only [asr16, BitVec.getLsbD_extractLsb', BitVec.getLsbD_sshiftRight, ← Nat.add_assoc,
    show ¬ 16 ≤ start + i by omega, show k + start + i < 16 by omega, decide_false, Bool.not_false, Bool.true_and,
    if_true]

/-- A left shift by `k` leaves zeros below bit `k`. -/
theorem extractLsb'_shl16_below {k start len : Nat} (h : start + len ≤ k) (v : Half) :
    (shl16 v k).extractLsb' start len = 0#len := by
  refine BitVec.eq_of_getLsbD_eq fun i hi => ?_
  simp [shl16, show start + i < k by omega]

/-- A left shift by `k` puts the low bits at bit `k`. -/
theorem extractLsb'_shl16_at {k len : Nat} (h : k + len ≤ 16) (v : Half) :
    (shl16 v k).extractLsb' k len = v.extractLsb' 0 len := by
  refine BitVec.eq_of_getLsbD_eq fun i hi => ?_
  simp only [shl16, BitVec.getLsbD_extractLsb', BitVec.getLsbD_shiftLeft, Nat.add_sub_cancel_left, Nat.zero_add,
    show k + i < 16 by omega, show ¬ k + i < k by omega, decide_true, decide_false, Bool.not_false, Bool.true_and]

/-- The low eight bits of a sign-extended byte are the byte. -/
theorem extractLsb'_sext16_low {start len : Nat} (h : start + len ≤ 8) (b : Byte) :
    (sext16 b).extractLsb' start len = b.extractLsb' start len := by
  refine BitVec.eq_of_getLsbD_eq fun i hi => ?_
  simp only [sext16, BitVec.getLsbD_extractLsb', BitVec.getLsbD_signExtend, show start + i < 16 by omega,
    show start + i < 8 by omega, decide_true, Bool.true_and, if_true]

/-- The high eight bits of a sign-extended byte are copies of its bit 7 (R83, R126). -/
theorem extractLsb'_sext16_high {start len : Nat} (hlow : 8 ≤ start) (hhigh : start + len ≤ 16) (b : Byte) :
    (sext16 b).extractLsb' start len = signFill len b := by
  refine BitVec.eq_of_getLsbD_eq fun i hi => ?_
  have bit : (signFill len b).getLsbD i = b.msb := by
    cases hb : b.msb <;> simp [signFill, hb, hi]
  simp only [bit, sext16, BitVec.getLsbD_extractLsb', BitVec.getLsbD_signExtend, hi, show start + i < 16 by omega,
    show ¬ start + i < 8 by omega, decide_true, Bool.true_and, if_false]

/-- A masked value is in the axis range (R25). -/
theorem toNat_and_axisMask_le (v : Half) : (v &&& Config.axisMask).toNat ≤ 2047 :=
  Nat.le_of_lt_succ (of_decide_eq_true (axisWf_and_axisMask v))

end Sys2Proof.Machine
end

section
/-!
The axes that two neighbouring bytes make (R111, R112, R114): the top `k` bits of the lower byte at bit 0, the upper
byte from bit `k` on, and the sign copies of the lower byte or-ed over it (R83).
-/

namespace Sys2Proof.Machine

/-- The axis of two neighbouring bytes, the lower one `a` giving its top `k` bits. -/
def twoByteAxis (k : Nat) (a b : Byte) : Half := (asr16 (sext16 a) (8 - k) ||| shl16 (sext16 b) k) &&& Config.axisMask

theorem rhValue_signed (f : RcFrame) : rhValue .signed f = twoByteAxis 8 f.b0 f.b1 := by
  rw [twoByteAxis, asr16, BitVec.sshiftRight_zero]
  rfl

theorem rvValue_signed (f : RcFrame) : rvValue .signed f = twoByteAxis 5 f.b1 f.b2 := rfl

theorem lvValue_signed (f : RcFrame) : lvValue .signed f = twoByteAxis 7 f.b4 f.b5 := rfl

theorem twoByteAxis_low {k : Nat} (hk : k ≤ 8) (a b : Byte) :
    (twoByteAxis k a b).extractLsb' 0 k = a.extractLsb' (8 - k) k := by
  rw [twoByteAxis, extractLsb'_and_axisMask (by omega), BitVec.extractLsb'_or, extractLsb'_asr16 (by omega),
    extractLsb'_sext16_low (by omega), extractLsb'_shl16_below (by omega), BitVec.or_zero, Nat.add_zero]

theorem twoByteAxis_high {k n : Nat} (hk : k ≤ 8) (hn : n ≤ 8) (h : k + n ≤ 11) (a b : Byte) :
    (twoByteAxis k a b).extractLsb' k n = b.extractLsb' 0 n ||| signFill n a := by
  rw [twoByteAxis, extractLsb'_and_axisMask h, BitVec.extractLsb'_or, extractLsb'_asr16 (by omega),
    extractLsb'_sext16_high (by omega) (by omega), extractLsb'_shl16_at (by omega), extractLsb'_sext16_low (by omega),
    BitVec.or_comm]

/-- Settles O8: `RH` is the axis of bytes 0 and 1 with the whole of byte 0 below. -/
theorem rightHorizontalExtraction : Obligations.RightHorizontalExtraction := by
  intro f s
  refine ⟨rhValue .signed f, rfl, rfl, rfl, ?low, ?high, toNat_and_axisMask_le _⟩
  case low => rw [rhValue_signed, twoByteAxis_low (by decide), BitVec.extractLsb'_eq_self]
  case high => rw [rhValue_signed, twoByteAxis_high (by decide) (by decide) (by decide)]

/-- Settles O9: `RV` is the axis of bytes 1 and 2 with the top five bits of byte 1 below. -/
theorem rightVerticalExtraction : Obligations.RightVerticalExtraction := by
  intro f s
  refine ⟨rvValue .signed f, rfl, rfl, rfl, ?low, ?high, toNat_and_axisMask_le _⟩
  case low => rw [rvValue_signed, twoByteAxis_low (by decide)]
  case high => rw [rvValue_signed, twoByteAxis_high (by decide) (by decide) (by decide)]

/-- Settles O11: `LV` is the axis of bytes 4 and 5 with the top seven bits of byte 4 below. -/
theorem leftVerticalExtraction : Obligations.LeftVerticalExtraction := by
  intro f s
  refine ⟨lvValue .signed f, rfl, rfl, rfl, ?low, ?high, toNat_and_axisMask_le _⟩
  case low => rw [lvValue_signed, twoByteAxis_low (by decide)]
  case high => rw [lvValue_signed, twoByteAxis_high (by decide) (by decide) (by decide)]

end Sys2Proof.Machine
end

section
/-!
The whole-frame decode of the remote-control variant (R123).
-/

namespace Sys2Proof.Machine

theorem exec_rcDecode (b : List Byte) (s : State) :
    exec (.rcDecode b) s = .next (s.emit { decoded := some (rcDecodeFrame byteWidening b) }) := rfl

/-- Settles O15: the decoder fails exactly on a wrong length, and a list of 18 bytes is the bytes of a frame. -/
theorem remoteFrameDecode : Obligations.RemoteFrameDecode := by
  intro b s
  rw [exec_rcDecode]
  refine ⟨fun wrong => ?_, fun right => ?_⟩
  · rw [(rcDecodeFrame_eq_mismatch_iff _ b).2 wrong]
    rfl
  · obtain ⟨f, hf⟩ := RcFrame.exists_of_length right
    obtain rfl := RcFrame.toBytes_of_ofBytes hf
    exact ⟨f, rfl, rfl⟩

end Sys2Proof.Machine
end

section
/-!
The companion extraction and the whole-frame decode of the companion variant (R140, R141).
-/

namespace Sys2Proof.Machine

theorem exec_cpVal (f : CpFrame) (s : State) :
    exec (.cpVal f) s = .next (s.emit { field := some (.val (valValue f)) }) := rfl

theorem exec_cpDecode (b : List Byte) (s : State) :
    exec (.cpDecode b) s = .next (s.emit { decoded := some (cpDecodeFrame b) }) := rfl

/-- The extracted value is the frame's byte at offset 2 (R140). -/
theorem valValue_eq_getD (f : CpFrame) : valValue f = f.toBytes.getD 2 0 := rfl

/-- The integer of a byte read as an 8-bit two's-complement pattern (R8). -/
theorem toInt_byte (x : Byte) : x.toInt = if x.toNat < 128 then (x.toNat : Int) else (x.toNat : Int) - 256 := by
  rw [BitVec.toInt_eq_toNat_cond]
  split <;> split <;> omega

/-- A list of 8 bytes decodes to its byte at offset 2 (R141). -/
theorem cpDecodeFrame_of_length_eq {b : List Byte} (h : b.length = 8) :
    cpDecodeFrame b = .ok (.companion ⟨b.getD 2 0⟩) := by
  obtain ⟨f, hf⟩ := CpFrame.exists_of_length h
  obtain rfl := CpFrame.toBytes_of_ofBytes hf
  rw [cpDecodeFrame_toBytes, valValue_eq_getD]

/-- Settles O22: the decoder fails exactly on a wrong length, and 8 bytes give the byte at offset 2. -/
theorem companionFrameDecode : Obligations.CompanionFrameDecode := by
  intro b s
  rw [exec_cpDecode]
  refine ⟨fun wrong => ?_, fun right => ?_⟩
  · rw [(cpDecodeFrame_eq_mismatch_iff b).2 wrong]
    rfl
  · rw [cpDecodeFrame_of_length_eq right]
    rfl

/-- Settles O21: the value is the byte at offset 2, read as a two's-complement pattern. -/
theorem companionExtraction : Obligations.CompanionExtraction := by
  intro f s
  exact ⟨valValue f, exec_cpVal f s, valValue_eq_getD f, toInt_byte f.b2⟩

end Sys2Proof.Machine
end

section
/-!
The queue along a run (R159, R160): what each operation accepts and pops, and the order of notifications they keep.
-/

namespace Sys2Proof.Machine

/-- One operation of a run that answers a next state has one of the effects of an operation. -/
theorem attempt_effect {i : Instr} {s t : State} (h : attempt i s = .next t) : Effect s i t := by
  obtain ⟨-, h⟩ | ⟨off, rfl⟩ := attempt_next_iff.1 h
  · exact exec_effect h
  · exact .notEnabled i off

theorem acceptedBy_qPush_of_room {s : State} (room : s.queue.length < s.params.qdepth) (n : Notification) :
    acceptedBy (.qPush n) s = [n] := if_pos room

theorem acceptedBy_qPush_of_full {s : State} (full : s.params.qdepth ≤ s.queue.length) (n : Notification) :
    acceptedBy (.qPush n) s = [] := if_neg (Nat.not_lt.2 full)

theorem acceptedBy_of_pureOp {i : Instr} (hi : pureOp i = true) (s : State) : acceptedBy i s = [] := by
  cases i
  case qPush => cases hi
  all_goals rfl

theorem acceptedBy_of_not_enabled {i : Instr} {s : State} (off : enabled i s = false) : acceptedBy i s = [] := by
  cases i
  case qPush => simp at off
  all_goals rfl

theorem poppedBy_wPop_of_head {s : State} {n : Notification} {rest : List Notification} (phase : s.wphase = .wait)
    (head : s.queue = n :: rest) : poppedBy .wPop s = [n] := by
  simp [poppedBy, phase, head]

theorem poppedBy_of_pureOp {i : Instr} (hi : pureOp i = true) (s : State) : poppedBy i s = [] := by
  cases i
  case wPop => cases hi
  all_goals rfl

theorem poppedBy_of_not_enabled {i : Instr} {s : State} (off : enabled i s = false) : poppedBy i s = [] := by
  cases i
  case wPop =>
    have hqueue : s.wphase = .wait → s.queue = [] := fun phase => by
      by_contra hne
      simp [(State.popEnabled_iff s).2 ⟨phase, hne⟩] at off
    simpa [poppedBy] using hqueue
  all_goals rfl

/-- Every effect but that of `RESET` keeps the order: it appends what it accepts and takes what it pops from the front. -/
theorem Effect.queue_order {i : Instr} {s t : State} (h : Effect s i t) (hi : i ≠ .reset) :
    s.queue ++ acceptedBy i s = poppedBy i s ++ t.queue := by
  cases h with
  | accepted n room =>
    rw [acceptedBy_qPush_of_room room]
    rfl
  | overflowed n full =>
    rw [acceptedBy_qPush_of_full full, List.append_nil]
    rfl
  | popped n rest phase head =>
    rw [poppedBy_wPop_of_head phase head, head]
    exact List.append_nil _
  | output _ o hpure => simp [acceptedBy_of_pureOp hpure, poppedBy_of_pureOp hpure]
  | notEnabled _ off => simp [acceptedBy_of_not_enabled off, poppedBy_of_not_enabled off]
  | restarted => exact absurd rfl hi
  | read | published | discarded | stored | cancelled => exact List.append_nil _

/-- Along a run without `RESET`, queued then accepted is popped then queued, in that order (R159). -/
theorem runAll_queue_order {is : List Instr} {s t : State} (noReset : ∀ i ∈ is, i ≠ .reset)
    (h : runAll is s = .next t) : s.queue ++ gather acceptedBy is s = gather poppedBy is s ++ t.queue := by
  induction is generalizing s with
  | nil =>
    cases h
    exact List.append_nil _
  | cons i is ih =>
    obtain ⟨hi, his⟩ := List.forall_mem_cons.1 noReset
    obtain ⟨u, hu, hrest⟩ := runAll_cons_next_iff.1 h
    rw [gather_cons hu, gather_cons hu]
    calc s.queue ++ (acceptedBy i s ++ gather acceptedBy is u)
        = (poppedBy i s ++ u.queue) ++ gather acceptedBy is u := by
          rw [← List.append_assoc, (attempt_effect hu).queue_order hi]
      _ = poppedBy i s ++ (gather poppedBy is u ++ t.queue) := by rw [List.append_assoc, ih his hrest]
      _ = (poppedBy i s ++ gather poppedBy is u) ++ t.queue := (List.append_assoc _ _ _).symm

/-- Settles O47: every operation keeps the order of notifications, so every run without `RESET` does. -/
theorem queueIsFirstInFirstOut : Obligations.QueueIsFirstInFirstOut :=
  fun _ _ _ noReset h => runAll_queue_order noReset h

end Sys2Proof.Machine
end

section
/-!
A push and a snapshot, in any state (R151, R156, R162).
-/

namespace Sys2Proof.Machine

theorem exec_qPush_of_room {s : State} (room : s.hasRoom = true) (n : Notification) :
    exec (.qPush n) s = .next ((s.enqueue n).emit { pushOk := some true }) := if_pos room

theorem exec_qPush_of_full {s : State} (full : s.hasRoom = false) (n : Notification) :
    exec (.qPush n) s = .next ((s.raise ⟨.queueOverflow, n.tid, n.len⟩).emit
      { pushOk := some false, sinkOut := some ⟨.queueOverflow, n.tid, n.len⟩ }) :=
  if_neg (Bool.eq_false_iff.1 full)

/-- A push always answers a next state, and whether there was room says what it answers and adds (R151, R162). -/
theorem exec_qPush_answers_hasRoom (n : Notification) (s : State) :
    ∃ t, exec (.qPush n) s = .next t ∧ t.out.pushOk = some s.hasRoom ∧
      t.queue.length = s.queue.length + s.hasRoom.toNat ∧ t.wphase = s.wphase := by
  cases room : s.hasRoom with
  | true => exact ⟨_, exec_qPush_of_room room n, rfl, List.length_append, rfl⟩
  | false => exact ⟨_, exec_qPush_of_full room n, rfl, rfl, rfl⟩

/-- There is room or not by the occupancy and the depth alone (R162). -/
theorem State.hasRoom_congr {s t : State} (hlength : s.queue.length = t.queue.length)
    (hdepth : s.params.qdepth = t.params.qdepth) : s.hasRoom = t.hasRoom := by
  rw [State.hasRoom, State.hasRoom, hlength, hdepth]

/-- Settles O25: what a push answers is whether there was room, which occupancy and depth decide. -/
theorem pushDependsOnOccupancyAlone : Obligations.PushDependsOnOccupancyAlone := by
  intro n m s t hlength hdepth
  have hroom : s.hasRoom = t.hasRoom := State.hasRoom_congr hlength hdepth
  obtain ⟨s', hs, sOk, sLength, sPhase⟩ := exec_qPush_answers_hasRoom n s
  obtain ⟨t', ht, tOk, tLength, tPhase⟩ := exec_qPush_answers_hasRoom m t
  refine ⟨s', t', hs, ht, ?ok, ?length, sPhase, tPhase⟩
  case ok => rw [sOk, tOk, hroom]
  case length => rw [sLength, tLength, hlength, hroom]

theorem exec_sSnapshot (s : State) : exec .sSnapshot s = .next (s.emit { snapOut := some s.cs }) := rfl

/-- Settles O32: the snapshot emits the whole store record and changes nothing but the ports. -/
theorem snapshotCopiesTheStore : Obligations.SnapshotCopiesTheStore :=
  fun s => exec_sSnapshot s

end Sys2Proof.Machine
end

section
/-!
Decoding and encoding port events (R80, R88, R89): what each format's decoder accepts, and that the event of an operation
is the only one that decodes to it.
-/

namespace Sys2Proof

theorem decodeRc18_ok {e : PortEvent} {mk : RcFrame → Instr} {i : Instr} (h : decodeRc18 e mk = .ok i) :
    ∃ f, i = mk f ∧ e.payload = .bytes f.toBytes := by
  unfold decodeRc18 at h
  split at h
  · split at h <;> cases h
    rename_i payload _ f hf
    exact ⟨f, rfl, by rw [payload, RcFrame.toBytes_of_ofBytes hf]⟩
  · cases h

theorem decodeComp8_ok {e : PortEvent} {mk : CpFrame → Instr} {i : Instr} (h : decodeComp8 e mk = .ok i) :
    ∃ f, i = mk f ∧ e.payload = .bytes f.toBytes := by
  unfold decodeComp8 at h
  split at h
  · split at h <;> cases h
    rename_i payload _ f hf
    exact ⟨f, rfl, by rw [payload, CpFrame.toBytes_of_ofBytes hf]⟩
  · cases h

theorem decodeBytes_ok {e : PortEvent} {mk : List Byte → Instr} {i : Instr} (h : decodeBytes e mk = .ok i) :
    ∃ b, i = mk b ∧ e.payload = .bytes b := by
  unfold decodeBytes at h
  split at h <;> cases h
  exact ⟨_, rfl, ‹_›⟩

theorem decodeStrobe_ok {e : PortEvent} {i j : Instr} (h : decodeStrobe e j = .ok i) :
    i = j ∧ e.payload = .strobe := by
  unfold decodeStrobe at h
  split at h <;> cases h
  exact ⟨rfl, ‹_›⟩

/-- Decoding the event of an operation gives the operation. -/
theorem decode_encode (i : Instr) : decode (encode i) = .ok i := by
  cases i <;> rfl

/-- An event that decodes to an operation is the event of that operation: its port names the row, and what it carries
is the operand. -/
theorem eq_encode_of_decode {e : PortEvent} {i : Instr} (h : decode e = .ok i) : e = encode i := by
  obtain ⟨op, payload⟩ := e
  cases op <;> simp only [decode] at h
  case rcRh | rcRv | rcLh | rcLv | rcSl | rcSr | rcMx | rcMy | rcMz | rcMl | rcMr | rcKb =>
    obtain ⟨f, rfl, rfl⟩ := decodeRc18_ok h
    rfl
  case cpVal =>
    obtain ⟨f, rfl, rfl⟩ := decodeComp8_ok h
    rfl
  case rcDecode | cpDecode | wRead =>
    obtain ⟨b, rfl, rfl⟩ := decodeBytes_ok h
    rfl
  case wPop | wDecode | sSnapshot | reset =>
    obtain ⟨rfl, rfl⟩ := decodeStrobe_ok h
    rfl
  case qPush | sPublish | wCancel =>
    split at h <;> cases h
    rfl

/-- Settles O1: encoding then decoding is the identity, and decoding forces the event. -/
theorem decodeEncodeAgree : Obligations.DecodeEncodeAgree :=
  fun _ i => ⟨eq_encode_of_decode, fun h => h ▸ decode_encode i⟩

end Sys2Proof
end

section
/-!
SUPPORT. The operations that change state: one equation per case (R151 to R157, R210).
-/

namespace Sys2Proof.Machine

theorem exec_wPop_of_head {s : State} {n : Notification} {rest : List Notification} (phase : s.wphase = .wait)
    (head : s.queue = n :: rest) : exec .wPop s = .next ((s.takeInHand n rest).emit {}) := by
  simp only [exec, execWPop, phase, head]

theorem exec_wPop_of_off {s : State} (off : s.popEnabled = false) : exec .wPop s = .next s := by
  simp only [exec, execWPop]
  split
  · rename_i phase head
    simp [State.popEnabled, phase, head] at off
  · rfl

theorem exec_wRead_of_on {s : State} (on : s.readEnabled = true) (answer : List Byte) :
    exec (.wRead answer) s =
      .next (((s.fillScratch (s.bytesRead answer)).setPhase .decode).emit { trReq := some s.transportRequest }) :=
  if_pos on

theorem exec_wRead_of_off {s : State} (off : s.readEnabled = false) (answer : List Byte) :
    exec (.wRead answer) s = .next s :=
  if_neg (Bool.eq_false_iff.1 off)

theorem exec_wDecode_of_ok {s : State} {r : Record} (on : s.decodeEnabled = true)
    (ok : s.scratchDecoded = some (.ok r)) : exec .wDecode s = .next (s.publishFrame r) := by
  simp only [exec, execWDecode, on, ok, if_true]

theorem exec_wDecode_of_mismatch {s : State} (on : s.decodeEnabled = true)
    (bad : s.scratchDecoded = some .lengthMismatch) : exec .wDecode s = .next s.discardFrame := by
  simp only [exec, execWDecode, on, bad, if_true]

theorem exec_wDecode_of_none {s : State} (on : s.decodeEnabled = true) (none : s.scratchDecoded = none) :
    exec .wDecode s = .fault .scratchExtent := by
  simp only [exec, execWDecode, on, none, if_true]

theorem exec_wDecode_of_off {s : State} (off : s.decodeEnabled = false) : exec .wDecode s = .next s :=
  if_neg (Bool.eq_false_iff.1 off)

theorem exec_sPublish_of_same {r : Record} {s : State} (same : r.variant = s.params.variant) :
    exec (.sPublish r) s = .next ((s.publish r).emit {}) := if_pos same

theorem exec_sPublish_of_other {r : Record} {s : State} (other : r.variant ≠ s.params.variant) :
    exec (.sPublish r) s = .refused (.recordVariant r.variant) := if_neg other

theorem exec_wCancel_of_on {s : State} {cancel : Bool} (on : s.cancelEnabled cancel = true) :
    exec (.wCancel cancel) s = .next ((s.setPhase .halt).emit {}) := if_pos on

theorem exec_wCancel_of_off {s : State} {cancel : Bool} (off : s.cancelEnabled cancel = false) :
    exec (.wCancel cancel) s = .next s := if_neg (Bool.eq_false_iff.1 off)

theorem exec_reset (s : State) : exec .reset s = .next (s.restart.emit {}) := rfl

/-- A pure operation puts its result on the ports and changes nothing else (R110, R123, R141, R156). -/
theorem exec_of_pureOp {i : Instr} (hi : pureOp i = true) (s : State) : ∃ o, exec i s = .next (s.emit o) := by
  cases i
  case qPush | wPop | wRead | wDecode | sPublish | wCancel | reset => cases hi
  all_goals exact ⟨_, rfl⟩

/-- The scratch buffer decodes unless `scratch_len` exceeds it (R23, R50). -/
theorem State.scratchDecoded_eq_none_iff (s : State) : s.scratchDecoded = none ↔ s.params.scratchCap < s.scratchLen := by
  simp [State.scratchDecoded, State.scratchFrame]

/-- The decode of the scratch buffer fails exactly on a wrong `scratch_len` (R154, R181). -/
theorem State.scratchDecoded_eq_mismatch_iff {s : State} (h : s.scratchLen ≤ s.params.scratchCap) :
    s.scratchDecoded = some .lengthMismatch ↔ s.scratchLen ≠ Config.frameLen s.params.variant := by
  rw [State.scratchDecoded_eq h, Option.some_inj, decodeFrame_eq_mismatch_iff, Memory.length_readList]

end Sys2Proof.Machine
end

section
/-!
The invariant (R41): every update of the state keeps it under the guard its operation has, so every step does.
-/

namespace Sys2Proof.Machine

theorem State.restart_scratch_wf (s : State) : Memory.wf s.restart.scratch := Memory.writeList_wf Memory.nil_wf _ _

theorem State.restart_scratch_within (s : State) : Memory.within s.params.scratchCap s.restart.scratch :=
  Memory.writeList_within nofun (by simp)

theorem State.restart_scratchLen_le (s : State) : s.restart.scratchLen ≤ s.params.scratchCap :=
  Nat.le_of_lt_succ (Nat.mod_lt _ (Nat.succ_pos _))

namespace StateInv

variable {s : State}

theorem emit (h : StateInv s) (o : Outputs) : StateInv (s.emit o) := { h with }

theorem advance (h : StateInv s) (rest : List PortEvent) : StateInv (s.advance rest) := { h with }

theorem countDraw (h : StateInv s) : StateInv s.countDraw := { h with }

theorem raise (h : StateInv s) (e : EventRecord) : StateInv (s.raise e) := { h with }

theorem enqueue (h : StateInv s) (room : s.queue.length < s.params.qdepth) (n : Notification) :
    StateInv (s.enqueue n) :=
  { h with queue := by simpa using room }

theorem setPhase (h : StateInv s) {p : WPhase} (hp : p = .halt → s.params.hasCancel = true) :
    StateInv (s.setPhase p) :=
  { h with halt := fun halted => hp ((State.halted_iff _).1 halted) }

theorem takeInHand (h : StateInv s) {n : Notification} {rest : List Notification} (head : s.queue = n :: rest) :
    StateInv (s.takeInHand n rest) :=
  { h with
    queue := by
      have := h.queue
      rw [head, List.length_cons] at this
      exact Nat.le_of_succ_le this
    halt := fun halted => nomatch (State.halted_iff _).1 halted }

theorem fillScratch (h : StateInv s) {b : List Byte} (hb : b.length ≤ s.params.scratchCap) :
    StateInv (s.fillScratch b) :=
  { h with
    canonical := Memory.writeList_wf h.canonical 0 b
    extent := Memory.writeList_within h.extent (by simpa using hb)
    scratchLen := hb }

/-- Publishing the decode of a frame: the record is of the variant and in its value set (R41, R60). -/
theorem publish (h : StateInv s) {b : List Byte} {r : Record} (ok : decodeFrame s.params.variant b = .ok r) :
    StateInv (s.publish r) := by
  obtain ⟨hvariant, hwf⟩ := decodeFrame_ok ok
  obtain ⟨haxes, hkeyboard⟩ := Bool.and_eq_true_iff.1 hwf
  exact { h with
    variant := hvariant
    axes := fun _ => haxes
    keyboard := fun _ => hkeyboard
    published := .inr ⟨b, ok⟩ }

/-- What is queued, in hand or in the scratch buffer does not matter to a restart (R210). -/
theorem restart (h : StateInv s) : StateInv s.restart where
  params := h.params
  queue := Nat.zero_le _
  variant := of_decide_eq_true (Bool.and_eq_true_iff.1 h.params).2
  axes := id
  keyboard := id
  published := .inl rfl
  canonical := s.restart_scratch_wf
  extent := s.restart_scratch_within
  scratchLen := s.restart_scratchLen_le
  halt := fun halted => nomatch (State.halted_iff _).1 halted

theorem publishFrame (h : StateInv s) {r : Record} (ok : s.scratchDecoded = some (.ok r)) :
    StateInv (s.publishFrame r) := by
  obtain ⟨-, hr⟩ := State.scratchDecoded_some ok
  exact ((h.publish hr.symm).setPhase (p := .wait) nofun).emit _

theorem discardFrame (h : StateInv s) : StateInv s.discardFrame :=
  ((h.raise _).setPhase (p := .wait) nofun).emit _

end StateInv

/-- An operation that can be the next step keeps the invariant. A publish of its own would not: its record is any. -/
theorem StateInv.exec {i : Instr} {s t : State} (h : StateInv s) (on : enabled i s = true)
    (hx : exec i s = .next t) : StateInv t := by
  cases exec_effect hx with
  | output _ o => exact h.emit o
  | accepted n room => exact (h.enqueue room n).emit _
  | overflowed n => exact (h.raise _).emit _
  | popped n rest _ head => exact (h.takeInHand head).emit _
  | read answer => exact ((h.fillScratch (State.length_bytesRead_le s answer)).setPhase (p := .decode) nofun).emit _
  | published r _ ok => exact h.publishFrame ok
  | discarded => exact h.discardFrame
  | stored r => simp at on
  | cancelled may => exact (h.setPhase fun _ => may).emit _
  | restarted => exact h.restart.emit _
  | notEnabled => exact h

theorem workerAction_of_wait {s : State} (phase : s.wphase = .wait) (queued : s.queue ≠ []) :
    workerAction s = some .wPop := by
  simp [workerAction, phase, queued]

theorem workerAction_of_wait_empty {s : State} (phase : s.wphase = .wait) (empty : s.queue = []) :
    workerAction s = none := by
  simp [workerAction, phase, empty]

theorem workerAction_of_read {s : State} (phase : s.wphase = .read) :
    workerAction s = some (.wRead (freeAnswer s.params.myTid s.draws)) := by
  simp [workerAction, phase]

theorem workerAction_of_decode {s : State} (phase : s.wphase = .decode) : workerAction s = some .wDecode := by
  simp [workerAction, phase]

theorem workerAction_of_halt {s : State} (phase : s.wphase = .halt) : workerAction s = none := by
  simp [workerAction, phase]

/-- The worker's own next step is one it can take (R152 to R154, R158). -/
theorem enabled_of_workerAction {s : State} {i : Instr} (h : workerAction s = some i) : enabled i s = true := by
  cases phase : s.wphase with
  | wait =>
    by_cases empty : s.queue = []
    · rw [workerAction_of_wait_empty phase empty] at h
      cases h
    · rw [workerAction_of_wait phase empty] at h
      cases h
      exact (State.popEnabled_iff s).2 ⟨phase, empty⟩
  | read =>
    rw [workerAction_of_read phase] at h
    cases h
    exact (State.readEnabled_iff s).2 phase
  | decode =>
    rw [workerAction_of_decode phase] at h
    cases h
    exact (State.decodeEnabled_iff s).2 phase
  | halt =>
    rw [workerAction_of_halt phase] at h
    cases h

/-- Counting a draw changes no enabling condition. -/
theorem enabled_countDraw (i : Instr) (s : State) : enabled i s.countDraw = enabled i s := enabled_congr rfl rfl rfl i

/-- Settles O43: a step is an enabled operation or none, and both keep the invariant. -/
theorem stepKeepsTheInvariant : Obligations.StepKeepsTheInvariant := by
  intro s t h hstep
  obtain ⟨-, -, rfl⟩ | ⟨i, -, own, hx⟩ | ⟨e, rest, i, -, -, on, hx⟩ | ⟨e, rest, i, -, -, -, rfl⟩ :=
    step_next_cases hstep
  · exact h
  · exact h.countDraw.exec (by rw [enabled_countDraw, enabled_of_workerAction own]) hx
  · exact (h.advance rest).exec on hx
  · exact h.advance rest

/-- Settles O42: right after reset the store is `RESET_RECORD`, of the variant of the parameters, and all else is empty. -/
theorem invariantHoldsAfterReset : Obligations.InvariantHoldsAfterReset := by
  have init : ∀ p : Config.Params, p.wf = true → StateInv (State.init p) := fun p hp =>
    { params := hp
      queue := Nat.zero_le _
      variant := of_decide_eq_true (Bool.and_eq_true_iff.1 hp).2
      axes := id
      keyboard := id
      published := .inl rfl
      canonical := Memory.nil_wf
      extent := nofun
      scratchLen := Nat.zero_le _
      halt := nofun }
  exact ⟨init, init _ (by decide)⟩

/-- With `scratch_len` within its bound an operation that can be the next step answers a next state. -/
theorem exists_exec_next {i : Instr} {s : State} (hlen : s.scratchLen ≤ s.params.scratchCap)
    (on : enabled i s = true) : ∃ t, exec i s = .next t := by
  cases hx : exec i s with
  | next t => exact ⟨t, rfl⟩
  | fault r =>
    obtain ⟨-, -, hlt⟩ := exec_fault_cases hx
    omega
  | refused r => exact absurd hx (exec_ne_refused_of_enabled on)

/-- With nothing scheduled and `scratch_len` within its bound a step answers a next state. -/
theorem exists_step_next_of_idle {s : State} (hlen : s.scratchLen ≤ s.params.scratchCap) (idle : s.script = []) :
    ∃ t, step s = .next t := by
  cases own : workerAction s with
  | none => exact ⟨s, step_idle_none idle own⟩
  | some i =>
    rw [step_idle_some idle own]
    exact exists_exec_next hlen (by rw [enabled_countDraw, enabled_of_workerAction own])

/-- A scheduled event never faults while `scratch_len` is within its bound: it is refused, run or passed over. -/
theorem runEvent_ne_fault {s : State} (hlen : s.scratchLen ≤ s.params.scratchCap) (e : PortEvent) (r : Fault) :
    runEvent e s ≠ .fault r := by
  intro hf
  unfold runEvent at hf
  split at hf
  · cases hf
  · split at hf
    · obtain ⟨-, -, hlt⟩ := exec_fault_cases hf
      omega
    · cases hf

/-- Settles O44: the only fault needs a `scratch_len` beyond its bound, which the invariant shuts out. -/
theorem invariantStatesAreSafe : Obligations.InvariantStatesAreSafe := by
  intro s h
  refine ⟨fun r hf => ?safe, exists_step_next_of_idle h.scratchLen⟩
  cases hs : s.script with
  | nil =>
    obtain ⟨t, ht⟩ := exists_step_next_of_idle h.scratchLen hs
    rw [ht] at hf
    cases hf
  | cons e rest =>
    rw [step_script hs] at hf
    exact runEvent_ne_fault (s := s.advance rest) h.scratchLen e r hf

end Sys2Proof.Machine
end

section
/-!
What nobody can observe (R22, R23, R35, R40): states that differ only there go on to differ only there, and answer alike.
-/

namespace Sys2Proof.Machine

namespace Indistinct

variable {s t : State}

theorem enabled_eq (h : Indistinct s t) (i : Instr) : enabled i t = enabled i s :=
  enabled_congr h.params h.wphase h.queue i

theorem emit (h : Indistinct s t) (o : Outputs) : Indistinct (s.emit o) (t.emit o) := { h with out := rfl }

theorem enqueue (h : Indistinct s t) (n : Notification) : Indistinct (s.enqueue n) (t.enqueue n) :=
  { h with queue := by simp [h.queue] }

theorem raise (h : Indistinct s t) (e : EventRecord) : Indistinct (s.raise e) (t.raise e) :=
  { h with sink := by simp [h.sink] }

theorem publish (h : Indistinct s t) (r : Record) : Indistinct (s.publish r) (t.publish r) := { h with cs := rfl }

/-- Where the worker waits or has halted nothing in hand and nothing in the scratch buffer is meaningful. -/
theorem setPhase_of_idle (h : Indistinct s t) {p : WPhase} (hread : p ≠ .read) (hdecode : p ≠ .decode) :
    Indistinct (s.setPhase p) (t.setPhase p) :=
  { h with
    wphase := rfl
    cur := fun hp => absurd hp (not_or.2 ⟨hread, hdecode⟩)
    scratchLen := fun hp => absurd hp hdecode
    scratch := fun hp => absurd hp hdecode }

/-- A pop overwrites the notification in hand (R152). -/
theorem takeInHand (h : Indistinct s t) (n : Notification) (rest : List Notification) :
    Indistinct (s.takeInHand n rest) (t.takeInHand n rest) :=
  { h with
    queue := rfl
    wphase := rfl
    cur := fun _ => rfl
    scratchLen := nofun
    scratch := nofun }

theorem transportRequest_eq (h : Indistinct s t) (phase : s.wphase = .read) :
    t.transportRequest = s.transportRequest := by
  simp only [State.transportRequest, h.cur (.inl phase), h.params]

/-- A transport read overwrites `scratch_len` and every byte below it (R153). -/
theorem fillScratch (h : Indistinct s t) (hs : Memory.wf s.scratch) (ht : Memory.wf t.scratch)
    (phase : s.wphase = .read) (b : List Byte) :
    Indistinct ((s.fillScratch b).setPhase .decode) ((t.fillScratch b).setPhase .decode) :=
  { h with
    wphase := rfl
    cur := fun _ => h.cur (.inl phase)
    scratchLen := fun _ => rfl
    scratch := fun _ i (hi : i < b.length) => by
      show Memory.read (Memory.writeList t.scratch 0 b) i = Memory.read (Memory.writeList s.scratch 0 b) i
      have inside : 0 ≤ i ∧ i < 0 + b.length := by omega
      rw [Memory.read_writeList ht, Memory.read_writeList hs, if_pos inside, if_pos inside] }

/-- A decode reads the bytes below `scratch_len` and no other (R154). -/
theorem scratchDecoded_eq (h : Indistinct s t) (phase : s.wphase = .decode) :
    t.scratchDecoded = s.scratchDecoded := by
  have bytes : Memory.readList t.scratch 0 s.scratchLen = Memory.readList s.scratch 0 s.scratchLen :=
    Memory.readList_congr fun i _ hi => h.scratch phase i (by omega)
  simp only [State.scratchDecoded, State.scratchFrame, h.params, h.scratchLen phase, bytes]

theorem publishFrame (h : Indistinct s t) (r : Record) : Indistinct (s.publishFrame r) (t.publishFrame r) :=
  ((h.publish r).setPhase_of_idle (p := .wait) nofun nofun).emit {}

theorem discardFrame (h : Indistinct s t) (phase : s.wphase = .decode) : Indistinct s.discardFrame t.discardFrame := by
  simp only [State.discardFrame, h.cur (.inr phase), h.scratchLen phase]
  exact ((h.raise _).setPhase_of_idle (p := .wait) nofun nofun).emit _

/-- After a restart the worker waits, so the free values are not meaningful (R210). -/
theorem restart (h : Indistinct s t) : Indistinct s.restart t.restart where
  params := h.params
  queue := rfl
  wphase := rfl
  cs := by simp [h.params]
  sink := rfl
  out := h.out
  cur := by simp
  scratchLen := nofun
  scratch := nofun

end Indistinct

theorem sameOutcome_next {a b : Host.Outcome State Fault Refusal} {s t : State} (ha : a = .next s) (hb : b = .next t)
    (h : Indistinct s t) : SameOutcome a b := by
  subst ha hb
  exact h

/-- Two outcomes alike are two next states that nobody can tell apart, or the same stop. -/
theorem sameOutcome_cases {a b : Host.Outcome State Fault Refusal} (h : SameOutcome a b) :
    (∃ s t, a = .next s ∧ b = .next t ∧ Indistinct s t) ∨ (∃ r, a = .fault r ∧ b = .fault r) ∨
      ∃ r, a = .refused r ∧ b = .refused r := by
  cases a <;> cases b
  case next.next s t => exact .inl ⟨s, t, rfl, rfl, h⟩
  case fault.fault r _ => exact .inr (.inl ⟨r, rfl, congrArg _ h.symm⟩)
  case refused.refused r _ => exact .inr (.inr ⟨r, rfl, congrArg _ h.symm⟩)
  all_goals exact h.elim

/-- An operation that can be the next step answers alike in two states that nobody can tell apart. -/
theorem Indistinct.exec {s t : State} (h : Indistinct s t) (hs : Memory.wf s.scratch) (ht : Memory.wf t.scratch)
    {i : Instr} (on : enabled i s = true) : SameOutcome (exec i s) (exec i t) := by
  have on' : enabled i t = true := (h.enabled_eq i).trans on
  cases i
  case qPush n =>
    have room : t.hasRoom = s.hasRoom := by simp only [State.hasRoom, h.queue, h.params]
    cases hroom : s.hasRoom with
    | true =>
      exact sameOutcome_next (exec_qPush_of_room hroom n) (exec_qPush_of_room (room.trans hroom) n)
        ((h.enqueue n).emit _)
    | false =>
      exact sameOutcome_next (exec_qPush_of_full hroom n) (exec_qPush_of_full (room.trans hroom) n)
        ((h.raise _).emit _)
  case wPop =>
    obtain ⟨phase, hne⟩ := (State.popEnabled_iff s).1 on
    obtain ⟨n, rest, head⟩ := List.exists_cons_of_ne_nil hne
    exact sameOutcome_next (exec_wPop_of_head phase head)
      (exec_wPop_of_head (h.wphase.trans phase) (h.queue.trans head)) ((h.takeInHand n rest).emit {})
  case wRead answer =>
    have phase := (State.readEnabled_iff s).1 on
    have hreq := h.transportRequest_eq phase
    rw [exec_wRead_of_on on, exec_wRead_of_on on', State.bytesRead, State.bytesRead, hreq]
    exact (h.fillScratch hs ht phase _).emit _
  case wDecode =>
    have phase := (State.decodeEnabled_iff s).1 on
    have hdec := h.scratchDecoded_eq phase
    cases hd : s.scratchDecoded with
    | none =>
      rw [exec_wDecode_of_none on hd, exec_wDecode_of_none on' (hdec.trans hd)]
      rfl
    | some d =>
      cases d with
      | ok r =>
        exact sameOutcome_next (exec_wDecode_of_ok on hd) (exec_wDecode_of_ok on' (hdec.trans hd)) (h.publishFrame r)
      | lengthMismatch =>
        exact sameOutcome_next (exec_wDecode_of_mismatch on hd) (exec_wDecode_of_mismatch on' (hdec.trans hd))
          (h.discardFrame phase)
  case sPublish r => simp at on
  case wCancel cancel =>
    exact sameOutcome_next (exec_wCancel_of_on on) (exec_wCancel_of_on on') ((h.setPhase_of_idle (p := .halt) nofun nofun).emit {})
  case reset => exact h.restart.emit {}
  case sSnapshot =>
    rw [exec_sSnapshot, exec_sSnapshot, h.cs]
    exact h.emit _
  all_goals exact h.emit _

/-- One operation of a run answers alike in two states that nobody can tell apart. -/
theorem Indistinct.attempt {s t : State} (h : Indistinct s t) (hs : Memory.wf s.scratch) (ht : Memory.wf t.scratch)
    (i : Instr) : SameOutcome (attempt i s) (attempt i t) := by
  rw [Machine.attempt, Machine.attempt, h.enabled_eq i]
  cases on : enabled i s with
  | true => exact h.exec hs ht on
  | false => exact h

/-- Every operation of a run keeps the scratch buffer canonical. -/
theorem attempt_scratch_wf {i : Instr} {s t : State} (h : attempt i s = .next t) (hs : Memory.wf s.scratch) :
    Memory.wf t.scratch := by
  cases attempt_effect h with
  | read answer => exact Memory.writeList_wf hs 0 _
  | restarted => exact s.restart_scratch_wf
  | output | accepted | overflowed | popped | published | discarded | stored | cancelled | notEnabled => exact hs

/-- A run goes on from the next state of its first operation. -/
theorem runAll_cons_of_next {i : Instr} {s u : State} (h : attempt i s = .next u) (is : List Instr) :
    runAll (i :: is) s = runAll is u := by
  rw [runAll, ← attempt, h]

theorem runAll_cons_of_fault {i : Instr} {s : State} {r : Fault} (h : attempt i s = .fault r) (is : List Instr) :
    runAll (i :: is) s = .fault r := by
  rw [runAll, ← attempt, h]

theorem runAll_cons_of_refused {i : Instr} {s : State} {r : Refusal} (h : attempt i s = .refused r)
    (is : List Instr) : runAll (i :: is) s = .refused r := by
  rw [runAll, ← attempt, h]

/-- Settles O51: each operation answers alike and leaves two states that nobody can tell apart, so a run does. -/
theorem unspecifiedStateIsNeverObserved : Obligations.UnspecifiedStateIsNeverObserved := by
  intro is
  induction is with
  | nil => exact fun _ _ _ _ h => h
  | cons i is ih =>
    intro s t hs ht h
    obtain ⟨u, v, hu, hv, huv⟩ | ⟨r, hr, hr'⟩ | ⟨r, hr, hr'⟩ := sameOutcome_cases (h.attempt hs ht i)
    · rw [runAll_cons_of_next hu, runAll_cons_of_next hv]
      exact ih u v (attempt_scratch_wf hu hs) (attempt_scratch_wf hv ht) huv
    · rw [runAll_cons_of_fault hr, runAll_cons_of_fault hr']
      rfl
    · rw [runAll_cons_of_refused hr, runAll_cons_of_refused hr']
      rfl

end Sys2Proof.Machine
end

section
/-!
SUPPORT. A property that every operation of a run keeps holds at its end, and what an idle step and a decode leave.
-/

namespace Sys2Proof.Machine

/-- What each operation of a run keeps, the run keeps. -/
theorem runAll_keeps {P : State → Prop} {is : List Instr} {s t : State}
    (keeps : ∀ i ∈ is, ∀ u v, P u → attempt i u = .next v → P v) (start : P s) (h : runAll is s = .next t) : P t := by
  induction is generalizing s with
  | nil =>
    cases h
    exact start
  | cons i is ih =>
    obtain ⟨hi, his⟩ := List.forall_mem_cons.1 keeps
    obtain ⟨u, hu, hrest⟩ := runAll_cons_next_iff.1 h
    exact ih his (hi s u start hu) hrest

theorem attempt_of_enabled {i : Instr} {s : State} (on : enabled i s = true) : attempt i s = exec i s := if_pos on

theorem attempt_params {i : Instr} {s t : State} (h : attempt i s = .next t) : t.params = s.params := by
  cases attempt_effect h <;> rfl

/-- No step changes the parameters (R8). -/
theorem step_params {s t : State} (h : step s = .next t) : t.params = s.params := by
  obtain ⟨-, -, rfl⟩ | ⟨i, -, -, hx⟩ | ⟨e, rest, i, -, -, -, hx⟩ | ⟨e, rest, i, -, -, -, rfl⟩ := step_next_cases h
  · rfl
  · exact (exec_params hx :)
  · exact (exec_params hx :)
  · rfl

/-- A step schedules nothing. -/
theorem step_script_of_idle {s t : State} (idle : s.script = []) (h : step s = .next t) : t.script = [] := by
  obtain ⟨-, -, rfl⟩ | ⟨i, -, -, hx⟩ | ⟨e, rest, i, hs, -⟩ | ⟨e, rest, i, hs, -⟩ := step_next_cases h
  · exact idle
  · exact (exec_script hx).trans idle
  · simp [idle] at hs
  · simp [idle] at hs

/-- In `W_DECODE` the decode brings the worker back to the wait, and it publishes or reports, not both (R154). -/
theorem exec_wDecode_returns {s : State} (phase : s.wphase = .decode) (hlen : s.scratchLen ≤ s.params.scratchCap) :
    ∃ t, exec .wDecode s = .next t ∧ t.wphase = .wait ∧ t.queue = s.queue ∧ (t.cs ≠ s.cs → t.sink = s.sink) := by
  have on := (State.decodeEnabled_iff s).2 phase
  have hdec := State.scratchDecoded_eq hlen
  cases hd : decodeFrame s.params.variant (Memory.readList s.scratch 0 s.scratchLen) with
  | ok r => exact ⟨_, exec_wDecode_of_ok on (hdec.trans (congrArg some hd)), rfl, rfl, fun _ => rfl⟩
  | lengthMismatch =>
    exact ⟨_, exec_wDecode_of_mismatch on (hdec.trans (congrArg some hd)), rfl, rfl, fun hne => absurd rfl hne⟩

end Sys2Proof.Machine
end

section
/-!
Runs of operations: the worker's way back to the wait, the halt, the capacity of the queue (R36, R157 to R160).
-/

namespace Sys2Proof.Machine

/-- Settles O45: the read leaves `scratch_len` within its bound, so the decode returns to the wait. -/
theorem workerReturnsToTheWait : Obligations.WorkerReturnsToTheWait := by
  intro s answer phase
  have onRead := (State.readEnabled_iff s).2 phase
  obtain ⟨u, hread, hphase, hlen, hqueue, hcs, hsink⟩ : ∃ u, exec (.wRead answer) s = .next u ∧ u.wphase = .decode ∧
      u.scratchLen ≤ u.params.scratchCap ∧ u.queue = s.queue ∧ u.cs = s.cs ∧ u.sink = s.sink :=
    ⟨_, exec_wRead_of_on onRead answer, rfl, State.length_bytesRead_le s answer, rfl, rfl, rfl⟩
  obtain ⟨t, hdecode, twait, tqueue, tsink⟩ := exec_wDecode_returns hphase hlen
  refine ⟨t, ?run, twait, tqueue.trans hqueue, ?event⟩
  case run =>
    rw [runAll_cons_of_next ((attempt_of_enabled (i := .wRead answer) onRead).trans hread),
      runAll_cons_of_next ((attempt_of_enabled (i := .wDecode) ((State.decodeEnabled_iff u).2 hphase)).trans hdecode)]
    rfl
  case event =>
    rw [← hcs, ← hsink]
    exact tsink

/-- What a halted worker leaves as it found it in `s`: the halt, the store, and the queue but for its tail. -/
structure HaltedSince (s u : State) : Prop where
  wphase : u.wphase = .halt
  cs : u.cs = s.cs
  queue : s.queue <+: u.queue

/-- While the worker is halted every operation but `RESET` keeps it so (R36). -/
theorem HaltedSince.attempt {s u v : State} {i : Instr} (h : HaltedSince s u) (hi : i ≠ .reset)
    (hv : attempt i u = .next v) : HaltedSince s v := by
  obtain ⟨hphase, hcs, hqueue⟩ := h
  obtain ⟨on, hx⟩ | ⟨-, rfl⟩ := attempt_next_iff.1 hv
  · cases exec_effect hx with
    | output | overflowed | notEnabled => exact ⟨hphase, hcs, hqueue⟩
    | accepted n => exact ⟨hphase, hcs, hqueue.trans (List.prefix_append _ _)⟩
    | stored r => simp at on
    | restarted => exact absurd rfl hi
    | popped n rest phase | read answer phase | published r phase | discarded phase | cancelled may phase =>
      simp [hphase] at phase
  · exact ⟨hphase, hcs, hqueue⟩

/-- Settles O46: each operation of the run keeps the halt, the store and the queue's head. -/
theorem haltedUntilReset : Obligations.HaltedUntilReset := by
  intro is s t halted noReset hrun
  obtain ⟨hphase, hcs, hqueue⟩ : HaltedSince s t :=
    runAll_keeps (fun i hi _ _ h => h.attempt (noReset i hi))
      ⟨(State.halted_iff s).1 halted, rfl, List.prefix_rfl⟩ hrun
  exact ⟨(State.halted_iff t).2 hphase, hcs, hqueue⟩

/-- No operation takes the queue beyond its capacity: only a push with room makes it longer (R32, R160). -/
theorem Effect.queue_within {i : Instr} {s t : State} (h : Effect s i t) (within : s.queue.length ≤ s.params.qdepth) :
    t.queue.length ≤ t.params.qdepth := by
  cases h with
  | accepted n room => simpa using room
  | popped n rest _ head =>
    rw [head, List.length_cons] at within
    exact Nat.le_of_succ_le within
  | restarted => exact Nat.zero_le _
  | output | overflowed | read | published | discarded | stored | cancelled | notEnabled => exact within

/-- Settles O48: each operation of the run keeps the queue within its capacity, and the parameters. -/
theorem queueNeverExceedsItsCapacity : Obligations.QueueNeverExceedsItsCapacity := by
  intro is s t within hrun
  refine runAll_keeps (P := fun u => u.queue.length ≤ u.params.qdepth ∧ u.params = s.params)
    (fun i _ u v hu hv => ?_) ⟨within, rfl⟩ hrun
  obtain ⟨uwithin, uparams⟩ := hu
  exact ⟨(attempt_effect hv).queue_within uwithin, (attempt_params hv).trans uparams⟩

end Sys2Proof.Machine
end

section
/-!
The worker on its own (R158 to R161, D25): each step does one piece of the work left, and when none is left it waits.
-/

namespace Sys2Proof.Machine

/-- The notifications that the worker, left to itself, will read the transport for: the one in hand if it is not read yet,
then the queued ones. -/
def toRead (s : State) : List Notification := (if s.wphase = .read then [s.cur] else []) ++ s.queue

/-- The notifications that the worker, left to itself, will decode: the one in hand, then the queued ones. -/
def toDecode (s : State) : List Notification :=
  (if s.wphase = .read ∨ s.wphase = .decode then [s.cur] else []) ++ s.queue

/-- A step from `s` to `u` that does one piece of the worker's work: what it pops, reads and decodes comes off the front
of what is to be popped, read and decoded. -/
structure WorkStep (s u : State) : Prop where
  step : step s = .next u
  work : workLeft s = workLeft u + 1
  pops : s.queue = ownPop s ++ u.queue
  reads : toRead s = ownRead s ++ toRead u
  decodes : toDecode s = ownDecode s ++ toDecode u

theorem workStep_of_wait {s : State} (idle : s.script = []) (phase : s.wphase = .wait) {n : Notification}
    {rest : List Notification} (head : s.queue = n :: rest) :
    WorkStep s ((s.countDraw.takeInHand n rest).emit {}) := by
  have own : workerAction s = some .wPop := workerAction_of_wait phase (by simp [head])
  have own' := (ownAction_eq idle).trans own
  constructor
  case step => rw [step_idle_some idle own, exec_wPop_of_head (s := s.countDraw) phase head]
  case work =>
    simp only [workLeft, phase, head, State.emit_queue, State.emit_wphase, State.takeInHand_queue,
      State.takeInHand_wphase, List.length_cons]
    omega
  case pops => simp [ownPop, own', head]
  case reads => simp [toRead, ownRead, own', phase, head]
  case decodes => simp [toDecode, ownDecode, own', phase, head]

theorem workStep_of_read {s : State} (idle : s.script = []) (phase : s.wphase = .read) :
    ∃ u, WorkStep s u ∧ u.wphase = .decode := by
  have own := workerAction_of_read phase
  have own' := (ownAction_eq idle).trans own
  have on : s.countDraw.readEnabled = true := (State.readEnabled_iff _).2 phase
  refine ⟨_, ⟨(step_idle_some idle own).trans (exec_wRead_of_on on _), ?work, ?pops, ?reads, ?decodes⟩, rfl⟩
  case work => simp [workLeft, phase]
  case pops => simp [ownPop, own']
  case reads => simp [toRead, ownRead, own', phase]
  case decodes => simp [toDecode, ownDecode, own', phase]

theorem workStep_of_decode {s : State} (hlen : s.scratchLen ≤ s.params.scratchCap) (idle : s.script = [])
    (phase : s.wphase = .decode) : ∃ u, WorkStep s u ∧ u.wphase = .wait := by
  have own := workerAction_of_decode phase
  have own' := (ownAction_eq idle).trans own
  obtain ⟨u, hu, uphase, uqueue, -⟩ := exec_wDecode_returns (s := s.countDraw) phase hlen
  refine ⟨u, ⟨(step_idle_some idle own).trans hu, ?work, ?pops, ?reads, ?decodes⟩, uphase⟩
  case work => simp [workLeft, phase, uphase, uqueue]
  case pops => simp [ownPop, own', uqueue]
  case reads => simp [toRead, ownRead, own', phase, uphase, uqueue]
  case decodes => simp [toDecode, ownDecode, own', phase, uphase, uqueue]

/-- An unhalted worker with work left does a piece of it in its next step, and is not halted then. -/
theorem exists_workStep {s : State} (h : StateInv s) (idle : s.script = []) (unhalted : s.wphase ≠ .halt)
    (busy : workLeft s ≠ 0) : ∃ u, WorkStep s u ∧ u.wphase ≠ .halt := by
  cases phase : s.wphase with
  | wait =>
    have queued : s.queue ≠ [] := fun empty => busy (by simp [workLeft, phase, empty])
    obtain ⟨n, rest, head⟩ := List.exists_cons_of_ne_nil queued
    exact ⟨_, workStep_of_wait idle phase head, nofun⟩
  | read =>
    obtain ⟨u, hu, uphase⟩ := workStep_of_read idle phase
    exact ⟨u, hu, by simp [uphase]⟩
  | decode =>
    obtain ⟨u, hu, uphase⟩ := workStep_of_decode h.scratchLen idle phase
    exact ⟨u, hu, by simp [uphase]⟩
  | halt => exact absurd phase unhalted

/-- An unhalted worker without work left waits on an empty queue. -/
theorem waits_of_workLeft_eq_zero {s : State} (unhalted : s.wphase ≠ .halt) (done : workLeft s = 0) :
    s.wphase = .wait ∧ s.queue = [] := by
  obtain ⟨hqueue, hphase⟩ := Nat.add_eq_zero_iff.1 done
  refine ⟨?_, List.length_eq_zero_iff.1 (by omega)⟩
  cases phase : s.wphase with
  | wait => rfl
  | read | decode => simp [phase] at hphase
  | halt => exact absurd phase unhalted

/-- In as many steps as there is work left the worker pops, reads and decodes all that is to be, in order, and waits. -/
theorem worker_finishes {k : Nat} {s : State} (hk : workLeft s = k) (h : StateInv s) (idle : s.script = [])
    (unhalted : s.wphase ≠ .halt) :
    gatherSteps ownPop k s = s.queue ∧ gatherSteps ownRead k s = toRead s ∧ gatherSteps ownDecode k s = toDecode s ∧
      ∃ t, runSteps k s = .next t ∧ t.queue = [] ∧ t.wphase = .wait ∧ t.script = [] ∧ t.params = s.params := by
  induction k generalizing s with
  | zero =>
    obtain ⟨phase, empty⟩ := waits_of_workLeft_eq_zero unhalted hk
    refine ⟨empty.symm, ?_, ?_, s, rfl, empty, phase, idle, rfl⟩
    · simp [toRead, phase, empty, gatherSteps]
    · simp [toDecode, phase, empty, gatherSteps]
  | succ k ih =>
    obtain ⟨u, hu, uhalt⟩ := exists_workStep h idle unhalted (by omega)
    obtain ⟨pops, reads, decodes, t, hrun, tqueue, tphase, tscript, tparams⟩ :=
      ih (by have := hu.work; omega) (stepKeepsTheInvariant s u h hu.step) (step_script_of_idle idle hu.step) uhalt
    refine ⟨?_, ?_, ?_, t, ?_, tqueue, tphase, tscript, tparams.trans (step_params hu.step)⟩
    · rw [gatherSteps_succ hu.step, pops, ← hu.pops]
    · rw [gatherSteps_succ hu.step, reads, ← hu.reads]
    · rw [gatherSteps_succ hu.step, decodes, ← hu.decodes]
    · rw [runSteps_succ hu.step, hrun]

/-- Settles O50: the work left is done in order, and a worker that waits on an empty queue stays so. -/
theorem acceptedNotificationsAreProcessed : Obligations.AcceptedNotificationsAreProcessed := by
  intro s h idle unhalted
  have hphase : s.wphase ≠ .halt := fun hp => by simp [(State.halted_iff s).2 hp] at unhalted
  obtain ⟨pops, reads, decodes, t, hrun, tqueue, tphase, tscript, tparams⟩ := worker_finishes rfl h idle hphase
  exact ⟨pops, reads, decodes, t, hrun, tqueue, tphase, (State.quiescent_iff t).2 ⟨tqueue, .inl tphase⟩,
    step_idle_none tscript (workerAction_of_wait_empty tphase tqueue), tparams⟩

end Sys2Proof.Machine
end

section
/-!
The product of two (R193): a step of the product is a step of one of them, the other staying as it is.
-/

namespace Sys2Proof.Machine

theorem runSteps_succ_next_iff {k : Nat} {s t : State} :
    runSteps (k + 1) s = .next t ↔ ∃ u, step s = .next u ∧ runSteps k u = .next t := by
  rw [runSteps]
  cases step s <;> simp

theorem System.step_x_next_iff {m m' : System} :
    System.step .x m = .next m' ↔ ∃ u, Machine.step m.x = .next u ∧ m' = { m with x := u } := by
  rw [System.step]
  cases Machine.step m.x <;> simp [eq_comm]

theorem System.step_y_next_iff {m m' : System} :
    System.step .y m = .next m' ↔ ∃ u, Machine.step m.y = .next u ∧ m' = { m with y := u } := by
  rw [System.step]
  cases Machine.step m.y <;> simp [eq_comm]

theorem System.run_cons_next_iff {side : Side} {rest : List Side} {m m' : System} :
    System.run (side :: rest) m = .next m' ↔ ∃ n, System.step side m = .next n ∧ System.run rest n = .next m' := by
  rw [System.run]
  cases System.step side m <;> simp

/-- Settles O52, by induction on the list of sides: each step is one of its side's own run. -/
theorem instancesShareNothing : Obligations.InstancesShareNothing := by
  intro sides
  induction sides with
  | nil =>
    rintro ⟨x, y⟩ ⟨x', y'⟩
    simp [System.run, runSteps]
  | cons side rest ih =>
    intro m m'
    rw [System.run_cons_next_iff]
    cases side with
    | x =>
      rw [List.count_cons_self, List.count_cons_of_ne (by decide), runSteps_succ_next_iff]
      constructor
      · rintro ⟨n, hn, hrest⟩
        obtain ⟨u, hu, rfl⟩ := System.step_x_next_iff.1 hn
        obtain ⟨hx, hy⟩ := (ih _ _).1 hrest
        exact ⟨⟨u, hu, hx⟩, hy⟩
      · rintro ⟨⟨u, hu, hx⟩, hy⟩
        exact ⟨_, System.step_x_next_iff.2 ⟨u, hu, rfl⟩, (ih _ _).2 ⟨hx, hy⟩⟩
    | y =>
      rw [List.count_cons_self, List.count_cons_of_ne (by decide), runSteps_succ_next_iff]
      constructor
      · rintro ⟨n, hn, hrest⟩
        obtain ⟨u, hu, rfl⟩ := System.step_y_next_iff.1 hn
        obtain ⟨hx, hy⟩ := (ih _ _).1 hrest
        exact ⟨hx, ⟨u, hu, hy⟩⟩
      · rintro ⟨hx, ⟨u, hu, hy⟩⟩
        exact ⟨_, System.step_y_next_iff.2 ⟨u, hu, rfl⟩, (ih _ _).2 ⟨hx, hy⟩⟩

end Sys2Proof.Machine
end

section
/-!
SUPPORT. What the decode of the scratch buffer says of `scratch_len`, and what a transport read keeps of an answer.
-/

namespace Sys2Proof.Machine

theorem State.scratchDecoded_ok {s : State} {r : Record} (h : s.scratchDecoded = some (.ok r)) :
    s.scratchLen = Config.frameLen s.params.variant ∧
      decodeFrame s.params.variant (Memory.readList s.scratch 0 s.scratchLen) = .ok r := by
  obtain ⟨hlen, hr⟩ := State.scratchDecoded_some h
  refine ⟨?_, hr.symm⟩
  by_contra wrong
  rw [(State.scratchDecoded_eq_mismatch_iff hlen).2 wrong] at h
  cases h

theorem State.scratchLen_ne_of_mismatch {s : State} (h : s.scratchDecoded = some .lengthMismatch) :
    s.scratchLen ≠ Config.frameLen s.params.variant :=
  (State.scratchDecoded_eq_mismatch_iff (State.scratchDecoded_some h).1).1 h

/-- A list of the variant's frame length decodes to a record. -/
theorem decodeFrame_of_length_eq {v : Variant} {b : List Byte} (h : b.length = Config.frameLen v) :
    ∃ r, decodeFrame v b = .ok r := by
  cases hd : decodeFrame v b with
  | ok r => exact ⟨r, rfl⟩
  | lengthMismatch => exact absurd h ((decodeFrame_eq_mismatch_iff v b).1 hd)

/-- An answer within the bound of the request is read whole (R55). -/
theorem State.bytesRead_of_le {s : State} {answer : List Byte}
    (h : answer.length ≤ min s.cur.len s.params.scratchCap) : s.bytesRead answer = answer :=
  List.take_of_length_le h

/-- Cutting an answer at the bound of the request changes nothing of what is read. -/
theorem State.bytesRead_take (s : State) (answer : List Byte) :
    s.bytesRead (answer.take (min s.cur.len s.params.scratchCap)) = s.bytesRead answer := by
  rw [State.bytesRead, State.transportRequest, List.take_take, Nat.min_self]
  rfl

theorem SameState.emit (s : State) (o : Outputs) : SameState s (s.emit o) where
  params := rfl
  queue := rfl
  wphase := rfl
  cur := rfl
  scratch := rfl
  scratchLen := rfl
  cs := rfl
  sink := rfl
  script := rfl
  draws := rfl

theorem SameState.refl (s : State) : SameState s s := SameState.emit s s.out

end Sys2Proof.Machine
end

section
/-!
The operations of the pipeline, each with its frame (R151 to R157, R210).
-/

namespace Sys2Proof.Machine

/-- Settles O24: a push finds room or not. -/
theorem pushAppendsOrOverflows : Obligations.PushAppendsOrOverflows := by
  intro n s
  refine ⟨fun room => ?room, fun full => ?full⟩
  case room => exact exec_qPush_of_room ((State.hasRoom_iff s).2 room) n
  case full => exact exec_qPush_of_full (by simpa [State.hasRoom] using full) n

/-- Settles O26: a pop is enabled with a head in the wait, and not otherwise. -/
theorem popTakesTheOldest : Obligations.PopTakesTheOldest := by
  intro s
  refine ⟨fun n rest phase head => exec_wPop_of_head phase head, fun off => exec_wPop_of_off ?_⟩
  rw [← Bool.not_eq_true, State.popEnabled_iff]
  tauto

/-- Settles O27: the answer is read whole, and the list written from index 0 reads back there and nowhere else. -/
theorem readFillsTheScratchBuffer : Obligations.ReadFillsTheScratchBuffer := by
  intro answer s hwf phase hlen
  refine ⟨Memory.writeList s.scratch 0 answer, ?next, fun i => ?bytes⟩
  case next =>
    rw [exec_wRead_of_on ((State.readEnabled_iff s).2 phase), State.bytesRead_of_le hlen]
    rfl
  case bytes => simp [Memory.read_writeList hwf]

/-- Settles O28: what is read of an answer is what is read of its first bytes up to the bound. -/
theorem readTakesNoMoreThanAsked : Obligations.ReadTakesNoMoreThanAsked := by
  intro answer s
  refine ⟨?cut, fun phase => exec_wRead_of_off (by simpa [State.readEnabled] using phase) answer⟩
  cases on : s.readEnabled with
  | true => rw [exec_wRead_of_on on, exec_wRead_of_on on, State.bytesRead_take]
  | false => rw [exec_wRead_of_off on, exec_wRead_of_off on]

/-- Settles O29: the decode of the scratch buffer publishes on the right length and reports any other. -/
theorem decodePublishesOrReports : Obligations.DecodePublishesOrReports := by
  intro s phase hlen
  have on := (State.decodeEnabled_iff s).2 phase
  refine ⟨fun right => ?publish, fun wrong => ?report⟩
  case publish =>
    obtain ⟨r, hr⟩ := decodeFrame_of_length_eq
      (Memory.length_readList s.scratch 0 (Config.frameLen s.params.variant))
    have ok : s.scratchDecoded = some (.ok r) := by rw [State.scratchDecoded_eq hlen, right, hr]
    exact ⟨r, hr, exec_wDecode_of_ok on ok, _, exec_sPublish_of_same (decodeFrame_ok hr).1, exec_wDecode_of_ok on ok⟩
  case report => exact exec_wDecode_of_mismatch on ((State.scratchDecoded_eq_mismatch_iff hlen).2 wrong)

/-- Settles O30: outside its phase a decode is not enabled, and beyond the scratch buffer there is nothing to decode. -/
theorem decodeOutsideItsPhaseOrBuffer : Obligations.DecodeOutsideItsPhaseOrBuffer := by
  intro s
  refine ⟨fun phase => exec_wDecode_of_off (by simpa [State.decodeEnabled] using phase), fun phase beyond => ?_⟩
  exact exec_wDecode_of_none ((State.decodeEnabled_iff s).2 phase) (s.scratchDecoded_eq_none_iff.2 beyond)

/-- Settles O31: a record is of the variant of the parameters or it is not. -/
theorem publishReplacesTheWholeRecord : Obligations.PublishReplacesTheWholeRecord :=
  fun _ _ => ⟨exec_sPublish_of_same, exec_sPublish_of_other⟩

/-- Settles O33: a cancel is enabled with its three conditions, and not with one of them missing. -/
theorem cancelHaltsTheWaitingWorker : Obligations.CancelHaltsTheWaitingWorker := by
  intro cancel s
  refine ⟨fun may high phase => exec_wCancel_of_on ((State.cancelEnabled_iff s cancel).2 ⟨may, high, phase⟩),
    fun missing => exec_wCancel_of_off ?_⟩
  rw [← Bool.not_eq_true, State.cancelEnabled_iff]
  rintro ⟨may, high, phase⟩
  simp [may, high, phase] at missing

/-- Settles O34: the restarted state has the reset values, and its free parts keep their bounds. -/
theorem resetLeavesTheResetState : Obligations.ResetLeavesTheResetState := fun s =>
  ⟨_, exec_reset s, rfl, rfl, rfl, rfl, rfl, rfl, rfl, s.restart_scratch_wf, s.restart_scratch_within,
    s.restart_scratchLen_le, exec_sSnapshot _⟩

/-- Settles O35: the values `State.init` is defined with. -/
theorem resetStateValues : Obligations.ResetStateValues := by
  refine ⟨fun p => ⟨State.init_queue p, State.init_wphase p, ?halted, State.init_sink p, State.init_cs p,
    State.init_params p⟩, rfl, rfl⟩
  case halted => simp [State.halted]

end Sys2Proof.Machine
end

section
/-!
What every operation leaves unchanged, read off its effect (R61, R158, R180 to R182, R191).
-/

namespace Sys2Proof.Machine

/-- Settles O36: an operation that is none of the seven is a pure one. -/
theorem pureOperationsChangeNoState : Obligations.PureOperationsChangeNoState := by
  intro i s noPush noPop noRead noDecode noPublish noCancel noReset
  have hi : pureOp i = true := by
    cases i
    case qPush n => exact absurd rfl (noPush n)
    case wPop => exact absurd rfl noPop
    case wRead a => exact absurd rfl (noRead a)
    case wDecode => exact absurd rfl noDecode
    case sPublish r => exact absurd rfl (noPublish r)
    case wCancel c => exact absurd rfl (noCancel c)
    case reset => exact absurd rfl noReset
    all_goals rfl
  obtain ⟨o, ho⟩ := exec_of_pureOp hi s
  exact ⟨s.emit o, ho, SameState.emit s o, fun _ => rfl⟩

/-- Settles O37: the effects of each operation, one by one. -/
theorem stepsLeaveTheRestUnchanged : Obligations.StepsLeaveTheRestUnchanged := by
  intro i s t h
  have effect := exec_effect h
  refine ⟨?push, ?pop, ?read, ?decode, ?publish, ?cancel, ?scratch, exec_params h⟩
  case push =>
    rintro n rfl
    cases effect with
    | output _ _ hi => cases hi
    | accepted | overflowed | notEnabled => rfl
  case pop =>
    rintro rfl
    cases effect with
    | output _ _ hi => cases hi
    | popped | notEnabled => rfl
  case read =>
    rintro a rfl
    cases effect with
    | output _ _ hi => cases hi
    | read | notEnabled => rfl
  case decode =>
    rintro rfl
    cases effect with
    | output _ _ hi => cases hi
    | published | discarded | notEnabled => rfl
  case publish =>
    rintro r rfl
    cases effect with
    | output _ _ hi => cases hi
    | stored | notEnabled => rfl
  case cancel =>
    rintro c rfl
    cases effect with
    | output _ _ hi => cases hi
    | cancelled | notEnabled => rfl
  case scratch =>
    intro noRead noReset k
    cases effect with
    | read a => exact absurd rfl (noRead a)
    | restarted => exact absurd rfl noReset
    | output | accepted | overflowed | popped | published | discarded | stored | cancelled | notEnabled => rfl

/-- Settles O38: only the five effects below set the phase. -/
theorem onlyTheseStepsChangeThePhase : Obligations.OnlyTheseStepsChangeThePhase := by
  intro i s t h changed
  cases exec_effect h with
  | popped n rest phase => exact .inl ⟨rfl, phase, rfl⟩
  | read a phase => exact .inr (.inl ⟨⟨a, rfl⟩, phase, rfl⟩)
  | published r phase | discarded phase => exact .inr (.inr (.inl ⟨rfl, phase, rfl⟩))
  | cancelled may phase => exact .inr (.inr (.inr (.inl ⟨rfl, may, phase, rfl⟩)))
  | restarted => exact .inr (.inr (.inr (.inr ⟨rfl, rfl⟩)))
  | output | accepted | overflowed | stored | notEnabled => exact absurd rfl changed

/-- Settles O39: of the effects that set the store, a publish of its own is never enabled. -/
theorem onlyTheWorkerAndResetWriteTheStore : Obligations.OnlyTheWorkerAndResetWriteTheStore := by
  intro i s t on h changed
  cases exec_effect h with
  | published r phase ok =>
    obtain ⟨hlen, hr⟩ := State.scratchDecoded_ok ok
    exact .inl ⟨rfl, phase, rfl, hlen, hr⟩
  | restarted => exact .inr ⟨rfl, rfl⟩
  | stored r => simp at on
  | output | accepted | overflowed | popped | read | discarded | cancelled | notEnabled => exact absurd rfl changed

theorem eq_qPush_of_completion {i : Instr} (h : contextOf i = .completion) : ∃ n, i = .qPush n := by
  cases i
  case qPush n => exact ⟨n, rfl⟩
  all_goals cases h

theorem eq_sSnapshot_of_reader {i : Instr} (h : contextOf i = .reader) : i = .sSnapshot := by
  cases i
  case sSnapshot => rfl
  all_goals cases h

/-- Settles O40: the completion context only pushes, a reader only takes snapshots, and the worker never pushes. -/
theorem contextsKeepTheirRights : Obligations.ContextsKeepTheirRights := by
  intro i s t h
  have effect := exec_effect h
  refine ⟨fun completion => ?completion, fun worker => ?worker, fun reader => ?reader⟩
  case completion =>
    obtain ⟨n, rfl⟩ := eq_qPush_of_completion completion
    cases effect with
    | output _ _ hi => cases hi
    | accepted => exact ⟨.inr ⟨n, rfl⟩, rfl, rfl, rfl, rfl, rfl, rfl, rfl, fun _ => rfl, .inl rfl⟩
    | overflowed => exact ⟨.inl rfl, rfl, rfl, rfl, rfl, rfl, rfl, rfl, fun _ => rfl, .inr ⟨_, rfl, rfl⟩⟩
    | notEnabled => exact ⟨.inl rfl, rfl, rfl, rfl, rfl, rfl, rfl, rfl, fun _ => rfl, .inl rfl⟩
  case worker =>
    cases effect with
    | accepted | overflowed | restarted => cases worker
    | popped n rest _ head => exact ⟨.inr ⟨n, head⟩, .inl rfl⟩
    | discarded => exact ⟨.inl rfl, .inr ⟨_, rfl, rfl⟩⟩
    | output | read | published | stored | cancelled | notEnabled => exact ⟨.inl rfl, .inl rfl⟩
  case reader =>
    obtain rfl := eq_sSnapshot_of_reader reader
    cases effect with
    | output _ o => exact SameState.emit s o
    | notEnabled => exact SameState.refl s

/-- Settles O41: the overflow and the mismatch raise their event, and no other effect but `RESET` touches the sink. -/
theorem theSinkOnlyGrows : Obligations.TheSinkOnlyGrows := by
  intro i s t h noReset
  have effect := exec_effect h
  refine ⟨?grows, ?push, ?decode⟩
  case grows =>
    cases effect with
    | overflowed n full => exact .inr ⟨_, rfl, rfl, rfl, rfl, .inl ⟨rfl, rfl, full⟩⟩
    | discarded phase bad =>
      exact .inr ⟨_, rfl, rfl, rfl, rfl,
        .inr ⟨rfl, phase, rfl, rfl, rfl, State.scratchLen_ne_of_mismatch bad, rfl⟩⟩
    | restarted => exact absurd rfl noReset
    | output | accepted | popped | read | published | stored | cancelled | notEnabled => exact .inl rfl
  case push =>
    rintro n rfl full
    cases effect with
    | output _ _ hi => cases hi
    | accepted _ room => omega
    | overflowed => rfl
    | notEnabled _ off => simp at off
  case decode =>
    rintro rfl phase wrong
    cases effect with
    | output _ _ hi => cases hi
    | published r _ ok => exact absurd (State.scratchDecoded_ok ok).1 wrong
    | discarded => rfl
    | notEnabled _ off => simp [State.decodeEnabled, phase] at off

end Sys2Proof.Machine
end

section
/-!
What a step runs (R89, R150, R158), and the operations a table word or a phase selects.
-/

namespace Sys2Proof.Machine

theorem runEvent_of_enabled {e : PortEvent} {s : State} {i : Instr} (hd : decode e = .ok i)
    (on : enabled i s = true) : runEvent e s = exec i s := by
  simp [runEvent, hd, on]

theorem runEvent_of_not_enabled {e : PortEvent} {s : State} {i : Instr} (hd : decode e = .ok i)
    (off : enabled i s = false) : runEvent e s = .next s := by
  simp [runEvent, hd, off]

theorem runEvent_of_error {e : PortEvent} {s : State} {err : DecodeError} (hd : decode e = .error err) :
    runEvent e s = .refused (.undecodable err) := by
  simp [runEvent, hd]

/-- Settles O4: the step runs the first event, and the event its operation where that is enabled. -/
theorem stepRunsTheScheduledOperation : Obligations.StepRunsTheScheduledOperation := by
  intro s e rest i hs hd
  rw [step_script hs]
  exact ⟨runEvent_of_enabled hd, runEvent_of_not_enabled hd⟩

/-- Settles O5: the step runs the first event, which is refused with the decoder's reason. -/
theorem stepRefusesWhatIsNoOperation : Obligations.StepRefusesWhatIsNoOperation := by
  intro s e rest hs err hd
  rw [step_script hs, runEvent_of_error hd]

theorem decodeTableWord_eq_some_iff {nbits w : Nat} {i : Instr} :
    decodeTableWord nbits w = some i ↔ decode (tableEvent nbits w) = .ok i := by
  rw [decodeTableWord]
  cases decode (tableEvent nbits w) <;> simp

/-- A table word is read as a frame for the decoder of the variant its bit count selects (R89, R90). -/
theorem decode_tableEvent_cases {nbits w : Nat} {i : Instr} (h : decode (tableEvent nbits w) = .ok i) :
    (∃ b, i = .cpDecode b ∧ tableVariant nbits = .companion) ∨ ∃ b, i = .rcDecode b ∧ tableVariant nbits = .rc := by
  unfold tableEvent at h
  split at h
  · cases h
  · split at h <;> rename_i hbits <;> cases h
    · exact .inl ⟨_, rfl, if_pos hbits⟩
    · exact .inr ⟨_, rfl, if_neg hbits⟩

/-- What a table word decodes to is an operation of its variant, and enabled wherever the parameters have that variant. -/
theorem enabled_of_tableWord {nbits w : Nat} {i : Instr} (h : decode (tableEvent nbits w) = .ok i) :
    i.wf (tableVariant nbits) = true ∧ ∀ s : State, s.params.variant = tableVariant nbits → enabled i s = true := by
  obtain ⟨b, rfl, hv⟩ | ⟨b, rfl, hv⟩ := decode_tableEvent_cases h <;> simp [hv, enabled, Instr.wf]

/-- The event of a table word, placed first, is run on the state as one of the word's variant, the rest of the schedule
as it was. -/
theorem step_withFetchWord (s : State) (nbits w : Nat) :
    step (s.withFetchWord nbits w) = runEvent (tableEvent nbits w) (s.forVariant (tableVariant nbits)) := by
  have same : (s.forVariant (tableVariant nbits)).advance s.script = s.forVariant (tableVariant nbits) := by
    rw [← State.forVariant_script s (tableVariant nbits)]
    rfl
  rw [State.withFetchWord, step_script (State.advance_script _ _)]
  exact congrArg _ same

/-- Settles O6: the placed word's operation is enabled on the state as one of the word's variant. -/
theorem fetchedWordRunsNext : Obligations.FetchedWordRunsNext := by
  intro s nbits w i h
  have hd := decodeTableWord_eq_some_iff.1 h
  obtain ⟨hwf, on⟩ := enabled_of_tableWord hd
  have next : step (s.withFetchWord nbits w) = exec i (s.forVariant (tableVariant nbits)) := by
    rw [step_withFetchWord, runEvent_of_enabled hd (on _ (State.forVariant_variant s _))]
  refine ⟨next, fun same => ?_, hwf⟩
  rw [next, ← same, State.forVariant_self]

/-- Settles O7: the worker's own step in each phase, and none on an empty queue or in the halt. -/
theorem idleStepIsTheWorkersOwn : Obligations.IdleStepIsTheWorkersOwn := fun _ idle =>
  ⟨fun phase queued => step_idle_some idle (workerAction_of_wait phase queued),
    fun phase => step_idle_some idle (workerAction_of_read phase),
    fun phase => step_idle_some idle (workerAction_of_decode phase),
    fun phase empty => step_idle_none idle (workerAction_of_wait_empty phase empty),
    fun phase => step_idle_none idle (workerAction_of_halt phase)⟩

/-- Settles O3: the decoder reads each word and each event as written out. -/
theorem writtenOutWordsDecode : Obligations.WrittenOutWordsDecode := by
  unfold Obligations.WrittenOutWordsDecode
  decide

theorem enabled_of_rc {i : Instr} {s : State} (h : i.op ∈ [Op.rcRh, .rcRv, .rcLh, .rcLv, .rcSl, .rcSr, .rcMx, .rcMy,
    .rcMz, .rcMl, .rcMr, .rcKb, .rcDecode]) : enabled i s = true ↔ s.params.variant = .rc := by
  cases i
  case rcRh | rcRv | rcLh | rcLv | rcSl | rcSr | rcMx | rcMy | rcMz | rcMl | rcMr | rcKb | rcDecode =>
    simp [enabled, Instr.wf]
  all_goals simp [Instr.op] at h

theorem enabled_of_companion {i : Instr} {s : State} (h : i.op ∈ [Op.cpVal, .cpDecode]) :
    enabled i s = true ↔ s.params.variant = .companion := by
  cases i
  case cpVal | cpDecode => simp [enabled, Instr.wf]
  all_goals simp [Instr.op] at h

/-- Settles O54: the variant selects the frame operations, the phase and the queue those of the worker. -/
theorem operationsAreSelectedByVariantAndPhase : Obligations.OperationsAreSelectedByVariantAndPhase := fun s =>
  ⟨fun _ => enabled_of_rc, fun _ => enabled_of_companion, fun n => enabled_qPush n s, s.popEnabled_iff,
    fun _ => s.readEnabled_iff, s.decodeEnabled_iff, fun r => enabled_sPublish r s, enabled_sSnapshot s,
    s.cancelEnabled_iff, enabled_reset s⟩

end Sys2Proof.Machine
end

section
/-!
The packed notification (R86, D11): `len` below, `tid` above.
-/

namespace Sys2Proof

theorem Notification.unpack_pack {lenW : Nat} {n : Notification} (hlen : n.len < 2 ^ lenW) :
    Notification.unpack lenW (n.pack lenW) = n := by
  have hpack : n.pack lenW = 2 ^ lenW * n.tid + n.len := congrArg (· + n.len) (Nat.mul_comm _ _)
  rw [Notification.unpack, hpack, Nat.mul_add_div (Nat.two_pow_pos lenW), Nat.mul_add_mod, Nat.div_eq_of_lt hlen,
    Nat.mod_eq_of_lt hlen, Nat.add_zero]

theorem Notification.pack_lt {tidW lenW : Nat} {n : Notification} (htid : n.tid < 2 ^ tidW)
    (hlen : n.len < 2 ^ lenW) : n.pack lenW < 2 ^ (tidW + lenW) :=
  calc n.tid * 2 ^ lenW + n.len < (n.tid + 1) * 2 ^ lenW := by rw [Nat.succ_mul]; omega
    _ ≤ 2 ^ tidW * 2 ^ lenW := Nat.mul_le_mul_right _ htid
    _ = 2 ^ (tidW + lenW) := (Nat.pow_add 2 tidW lenW).symm

/-- Settles O53: unpacking divides by the power of two that packing multiplied with. -/
theorem packedNoteIsThePair : Obligations.PackedNoteIsThePair :=
  fun _ _ _ htid hlen => ⟨Notification.unpack_pack hlen, Notification.pack_lt htid hlen⟩

end Sys2Proof
end

section
/-!
The frame integer (R53): little-endian, bit by bit, and read back byte by byte.
-/

namespace Sys2Proof

theorem frameInteger_lt (b : List Byte) : frameInteger b < 2 ^ (8 * b.length) := by
  induction b with
  | nil => exact Nat.one_pos
  | cons x rest ih =>
    have hx := x.isLt
    rw [frameInteger, List.length_cons, Nat.mul_succ, Nat.pow_add]
    omega

/-- Above the eight bits of its first byte the frame integer is that of the rest. -/
theorem testBit_frameInteger_cons (x : Byte) (rest : List Byte) (f : Nat) :
    (frameInteger (x :: rest)).testBit f = if f < 8 then x.getLsbD f else (frameInteger rest).testBit (f - 8) := by
  rw [frameInteger, Nat.add_comm, show 256 = 2 ^ 8 from rfl, Nat.testBit_two_pow_mul_add _ x.isLt]
  rfl

theorem testBit_frameInteger (b : List Byte) (f : Nat) :
    (frameInteger b).testBit f = (b.getD (f / 8) 0).getLsbD (f % 8) := by
  induction b generalizing f with
  | nil => simp [frameInteger]
  | cons x rest ih =>
    rw [testBit_frameInteger_cons]
    split
    · rw [Nat.div_eq_of_lt ‹_›, Nat.mod_eq_of_lt ‹_›, List.getD_cons_zero]
    · obtain ⟨k, rfl⟩ : ∃ k, f = k + 8 := ⟨f - 8, by omega⟩
      rw [Nat.add_sub_cancel, ih, Nat.add_mod_right, Nat.add_div_right k (by decide), List.getD_cons_succ]

theorem frameBytes_frameInteger (b : List Byte) : frameBytes b.length (frameInteger b) = b := by
  induction b with
  | nil => rfl
  | cons x rest ih =>
    have hx := x.isLt
    have head : BitVec.ofNat 8 (frameInteger (x :: rest)) = x := by
      apply BitVec.eq_of_toNat_eq
      rw [BitVec.toNat_ofNat, frameInteger]
      omega
    have tail : frameInteger (x :: rest) / 256 = frameInteger rest := by
      rw [frameInteger]
      omega
    rw [List.length_cons, frameBytes, head, tail, ih]

/-- Settles O2: bound, bits and bytes of the frame integer, each by induction on the list. -/
theorem frameIntegerBits : Obligations.FrameIntegerBits :=
  fun b => ⟨frameInteger_lt b, fun f _ => testBit_frameInteger b f, frameBytes_frameInteger b⟩

end Sys2Proof
end

section
/-!
The intermediate arithmetic in numbers (R11, R12, R128).
-/

namespace Sys2Proof.Machine

@[simp] theorem toNat_zext16 (b : Byte) : (zext16 b).toNat = b.toNat := by
  have := b.isLt
  rw [zext16, BitVec.toNat_setWidth]
  omega

theorem toInt_sext16 (b : Byte) : (sext16 b).toInt = b.toInt := BitVec.toInt_signExtend_of_le (by decide)

theorem toNat_shl16 (v : Half) (k : Nat) : (shl16 v k).toNat = v.toNat * 2 ^ k % 2 ^ 16 := by
  rw [shl16, BitVec.toNat_shiftLeft, Nat.shiftLeft_eq]

theorem toInt_asr16 (v : Half) (k : Nat) : (asr16 v k).toInt = v.toInt / 2 ^ k := by
  rw [asr16, BitVec.toInt_sshiftRight, Int.shiftRight_eq_div_pow]
  norm_cast

theorem toNat_lsr16 (v : Half) (k : Nat) : (lsr16 v k).toNat = v.toNat / 2 ^ k := by
  rw [lsr16, BitVec.toNat_ushiftRight, Nat.shiftRight_eq_div_pow]

theorem toNat_and_axisMask (v : Half) : (v &&& Config.axisMask).toNat = v.toNat % 2048 := by
  rw [BitVec.toNat_and]
  exact Nat.and_two_pow_sub_one_eq_mod v.toNat 11

/-- Settles O20: each primitive is the arithmetic operation its rule names. -/
theorem intermediateArithmeticLaws : Obligations.IntermediateArithmeticLaws :=
  ⟨fun b => (toInt_sext16 b).trans (toInt_byte b), toNat_zext16, fun v k _ => toNat_shl16 v k,
    fun v k _ => toInt_asr16 v k, fun v k _ => toNat_lsr16 v k, toNat_and_axisMask⟩

/-- Or of two patterns of which one lies below bit `k` and the other has nothing there is their sum. -/
theorem toNat_or_of_lt_of_dvd {n k : Nat} {x y : BitVec n} (hx : x.toNat < 2 ^ k) (hy : 2 ^ k ∣ y.toNat) :
    (x ||| y).toNat = x.toNat + y.toNat := by
  obtain ⟨q, hq⟩ := hy
  rw [BitVec.toNat_or, hq, Nat.or_comm, ← Nat.two_pow_add_eq_or_of_lt hx, Nat.add_comm]

/-- The pattern of two bytes is the low byte plus 256 times the high byte. -/
theorem toNat_littleEndian16 (low high : Byte) : (littleEndian16 low high).toNat = low.toNat + 256 * high.toNat := by
  have hhigh := high.isLt
  have shifted : (shl16 (zext16 high) 8).toNat = 256 * high.toNat := by
    rw [toNat_shl16, toNat_zext16]
    omega
  have hlow : (zext16 low).toNat < 2 ^ 8 := (toNat_zext16 low).trans_lt low.isLt
  rw [littleEndian16, toNat_or_of_lt_of_dvd hlow (Dvd.intro _ shifted.symm), shifted, toNat_zext16]

theorem toInt_littleEndian16 (low high : Byte) :
    (littleEndian16 low high).toInt =
      (if high.toNat < 128 then low.toNat + 256 * high.toNat else low.toNat + 256 * high.toNat - 65536 : Int) := by
  have hlow := low.isLt
  rw [BitVec.toInt_eq_toNat_cond, toNat_littleEndian16]
  split <;> split <;> omega

/-- Settles O13: each mouse value is the signed little-endian integer of its two bytes. -/
theorem mouseExtractions : Obligations.MouseExtractions := fun f _ =>
  ⟨⟨mxValue f, rfl, rfl, toInt_littleEndian16 f.b6 f.b7⟩, ⟨myValue f, rfl, rfl, toInt_littleEndian16 f.b8 f.b9⟩,
    ⟨mzValue f, rfl, rfl, toInt_littleEndian16 f.b10 f.b11⟩⟩

/-- Settles O14: the buttons are raw bytes, and zero extension keeps the keyboard byte's number. -/
theorem buttonAndKeyboardExtractions : Obligations.ButtonAndKeyboardExtractions := fun f _ =>
  ⟨rfl, rfl, rfl, rfl, kbValue f, rfl, rfl, toNat_zext16 f.b14⟩

end Sys2Proof.Machine
end

section
/-!
What a decode depends on (R83, R84, R90, R123): the length, and the bytes the formulas name.
-/

namespace Sys2Proof

/-- Frames with the same bytes 0 to 14 differ at most in the last three. -/
theorem RcFrame.eq_of_take_fifteen {f g : RcFrame} (h : f.toBytes.take 15 = g.toBytes.take 15) :
    f = { g with b15 := f.b15, b16 := f.b16, b17 := f.b17 } := by
  obtain ⟨⟩ := f
  obtain ⟨⟩ := g
  cases h
  rfl

theorem RcFrame.bytes_eq_of_take_six {f g : RcFrame} (h : f.toBytes.take 6 = g.toBytes.take 6) :
    f.b0 = g.b0 ∧ f.b1 = g.b1 ∧ f.b2 = g.b2 ∧ f.b3 = g.b3 ∧ f.b4 = g.b4 ∧ f.b5 = g.b5 := by
  simpa [RcFrame.toBytes] using h

namespace Machine

/-- The record of a frame does not depend on its last three bytes (R84, D7). -/
theorem channelState_congr {w : Config.Widening} {f g : RcFrame} (h : f.toBytes.take 15 = g.toBytes.take 15) :
    channelState w f = channelState w g := by
  rw [RcFrame.eq_of_take_fifteen h]
  rfl

/-- Settles O16: the record reads bytes 0 to 14, the channel formulas name bytes 0 to 5. -/
theorem unusedBytesAffectNothing : Obligations.UnusedBytesAffectNothing := by
  refine ⟨fun w b c hb hc h => ?record, fun w f g h => ?channels⟩
  case record =>
    obtain ⟨f, hf⟩ := RcFrame.exists_of_length hb
    obtain ⟨g, hg⟩ := RcFrame.exists_of_length hc
    obtain rfl := RcFrame.toBytes_of_ofBytes hf
    obtain rfl := RcFrame.toBytes_of_ofBytes hg
    rw [rcDecodeFrame_toBytes, rcDecodeFrame_toBytes, channelState_congr h]
  case channels =>
    obtain ⟨h0, h1, h2, h3, h4, h5⟩ := RcFrame.bytes_eq_of_take_six h
    simp only [rhValue, rvValue, lhValue, lvValue, slValue, srValue, h0, h1, h2, h3, h4, h5, and_self]

/-- Settles O23: the decoder fails exactly on a wrong length, and what it answers is of the variant and in range. -/
theorem onlyTheLengthIsChecked : Obligations.OnlyTheLengthIsChecked := by
  intro v b
  refine ⟨decodeFrame_eq_mismatch_iff v b, fun right => ?_⟩
  obtain ⟨r, hr⟩ := decodeFrame_of_length_eq right
  exact ⟨r, hr, decodeFrame_ok hr⟩

end Machine

end Sys2Proof
end

section
/-!
SUPPORT. Bit ranges under either widening: the low eight bits are the byte, the high eight its fill, and two masked values
are equal when their ranges are (R12, R83, R126).
-/

namespace Sys2Proof.Machine

theorem msb_widen_signed (b : Byte) : (widen .signed b).msb = b.msb := by
  simp [widen, sext16, BitVec.msb_signExtend]

theorem msb_widen_unsigned (b : Byte) : (widen .unsigned b).msb = false := by
  simp [widen, zext16, BitVec.msb_setWidth]

/-- The bits of a widened byte: its own eight, then copies of the widened sign. -/
theorem getLsbD_widen (w : Config.Widening) (b : Byte) {i : Nat} (hi : i < 16) :
    (widen w b).getLsbD i = if i < 8 then b.getLsbD i else (widen w b).msb := by
  cases w with
  | signed =>
    rw [msb_widen_signed, widen, sext16, BitVec.getLsbD_signExtend, decide_eq_true hi, Bool.true_and]
  | unsigned =>
    rw [msb_widen_unsigned, widen, zext16, BitVec.getLsbD_setWidth, decide_eq_true hi, Bool.true_and]
    split
    · rfl
    · exact BitVec.getLsbD_of_ge b i (by omega)

/-- A widened byte shifted left, from the first shifted bit on. -/
theorem getLsbD_shl16_widen {k i : Nat} (hk : k ≤ i) (hi : i < 16) (w : Config.Widening) (b : Byte) :
    (shl16 (widen w b) k).getLsbD i = if i - k < 8 then b.getLsbD (i - k) else (widen w b).msb := by
  rw [shl16, BitVec.getLsbD_shiftLeft, getLsbD_widen w b (by omega), decide_eq_true hi,
    decide_eq_false (Nat.not_lt.2 hk), Bool.not_false, Bool.true_and, Bool.true_and]

/-- What a widening adds above a byte, `n` bits of it. -/
def widenFill (w : Config.Widening) (n : Nat) (b : Byte) : BitVec n :=
  if (widen w b).msb then BitVec.allOnes n else 0#n

theorem widenFill_signed (n : Nat) (b : Byte) : widenFill .signed n b = signFill n b := by
  rw [widenFill, msb_widen_signed, signFill]

theorem widenFill_unsigned (n : Nat) (b : Byte) : widenFill .unsigned n b = 0#n := by
  rw [widenFill, msb_widen_unsigned, if_neg Bool.false_ne_true]

theorem extractLsb'_widen_low {start len : Nat} (h : start + len ≤ 8) (w : Config.Widening) (b : Byte) :
    (widen w b).extractLsb' start len = b.extractLsb' start len := by
  refine BitVec.eq_of_getLsbD_eq fun i hi => ?_
  rw [BitVec.getLsbD_extractLsb', BitVec.getLsbD_extractLsb', getLsbD_widen w b (by omega), if_pos (by omega)]

theorem extractLsb'_widen_high {start len : Nat} (hlow : 8 ≤ start) (hhigh : start + len ≤ 16) (w : Config.Widening)
    (b : Byte) : (widen w b).extractLsb' start len = widenFill w len b := by
  refine BitVec.eq_of_getLsbD_eq fun i hi => ?_
  rw [BitVec.getLsbD_extractLsb', getLsbD_widen w b (by omega), if_neg (by omega)]
  cases hb : (widen w b).msb <;> simp [widenFill, hb, hi]

/-- Or-ing the sign copies over a range changes it unless they are zeros or the range is all ones already. -/
theorem or_signFill_eq_left_iff {n : Nat} (x : BitVec n) (b : Byte) :
    x ||| signFill n b = x ↔ b.msb = false ∨ x = BitVec.allOnes n := by
  cases hb : b.msb <;> simp [signFill, hb, eq_comm]

theorem extractLsb'_eq_iff {m start len : Nat} {u v : BitVec m} :
    u.extractLsb' start len = v.extractLsb' start len ↔
      ∀ i < len, u.getLsbD (start + i) = v.getLsbD (start + i) := by
  constructor
  · intro h i hi
    simpa [hi] using congrArg (·.getLsbD i) h
  · intro h
    refine BitVec.eq_of_getLsbD_eq fun i hi => ?_
    rw [BitVec.getLsbD_extractLsb', BitVec.getLsbD_extractLsb', h i hi]

theorem extractLsb'_one_eq_iff {m i : Nat} {u v : BitVec m} :
    u.extractLsb' i 1 = v.extractLsb' i 1 ↔ u.getLsbD i = v.getLsbD i := by
  simp [extractLsb'_eq_iff]

/-- Two ranges are equal when their lower and their upper part are. -/
theorem extractLsb'_add_eq_iff {m start k n : Nat} {u v : BitVec m} :
    u.extractLsb' start (k + n) = v.extractLsb' start (k + n) ↔
      u.extractLsb' start k = v.extractLsb' start k ∧ u.extractLsb' (start + k) n = v.extractLsb' (start + k) n := by
  simp only [extractLsb'_eq_iff]
  refine ⟨fun h => ⟨fun i hi => h i (by omega), fun i hi => ?upper⟩, fun ⟨lower, upper⟩ i hi => ?whole⟩
  case upper =>
    rw [Nat.add_assoc]
    exact h (k + i) (by omega)
  case whole =>
    by_cases hk : i < k
    · exact lower i hk
    · obtain ⟨j, rfl⟩ : ∃ j, i = k + j := ⟨i - k, by omega⟩
      rw [← Nat.add_assoc]
      exact upper j (by omega)

/-- Masked values are equal when their bits 10:0 are. -/
theorem and_axisMask_eq_iff (u v : Half) :
    u &&& Config.axisMask = v &&& Config.axisMask ↔
      (u &&& Config.axisMask).extractLsb' 0 11 = (v &&& Config.axisMask).extractLsb' 0 11 := by
  refine ⟨congrArg _, fun h => BitVec.eq_of_toNat_eq ?_⟩
  have hu := toNat_and_axisMask_le u
  have hv := toNat_and_axisMask_le v
  have bits := congrArg BitVec.toNat h
  rw [BitVec.extractLsb'_toNat, BitVec.extractLsb'_toNat, Nat.shiftRight_zero, Nat.shiftRight_zero] at bits
  omega

end Sys2Proof.Machine
end

section
/-!
`LH` under either widening (R113): two bits of byte 2, byte 3 with the fill of byte 2 over it, and bit 0 of byte 4 with
the signs of both over it.
-/

namespace Sys2Proof.Machine

theorem lhValue_low (w : Config.Widening) (f : RcFrame) :
    (lhValue w f).extractLsb' 0 2 = f.b2.extractLsb' 6 2 := by
  rw [lhValue, extractLsb'_and_axisMask (by decide), BitVec.extractLsb'_or, BitVec.extractLsb'_or,
    extractLsb'_asr16 (by decide), extractLsb'_widen_low (by decide), extractLsb'_shl16_below (by decide),
    extractLsb'_shl16_below (by decide), BitVec.or_zero, BitVec.or_zero]

theorem lhValue_middle (w : Config.Widening) (f : RcFrame) :
    (lhValue w f).extractLsb' 2 8 = f.b3 ||| widenFill w 8 f.b2 := by
  rw [lhValue, extractLsb'_and_axisMask (by decide), BitVec.extractLsb'_or, BitVec.extractLsb'_or,
    extractLsb'_asr16 (by decide), extractLsb'_widen_high (by decide) (by decide), extractLsb'_shl16_at (by decide),
    extractLsb'_widen_low (by decide), extractLsb'_shl16_below (by decide), BitVec.or_zero, BitVec.or_comm,
    BitVec.extractLsb'_eq_self]

/-- Bit 10 lies above byte 3 and, after the shift that copies the sign, above byte 2 (D2). -/
theorem lhValue_top (w : Config.Widening) (f : RcFrame) :
    (lhValue w f).getLsbD 10 = (f.b4.getLsbD 0 || (widen w f.b3).msb || (widen w f.b2).msb) := by
  have mask : Config.axisMask.getLsbD 10 = true := by decide
  have lower : (asr16 (widen w f.b2) 6).getLsbD 10 = (widen w f.b2).msb := by
    rw [asr16, BitVec.getLsbD_sshiftRight]
    rfl
  have middle : (shl16 (widen w f.b3) 2).getLsbD 10 = (widen w f.b3).msb :=
    getLsbD_shl16_widen (by decide) (by decide) w f.b3
  have upper : (shl16 (widen w f.b4) 10).getLsbD 10 = f.b4.getLsbD 0 :=
    getLsbD_shl16_widen (by decide) (by decide) w f.b4
  rw [lhValue, BitVec.getLsbD_and, BitVec.getLsbD_or, BitVec.getLsbD_or, mask, lower, middle, upper, Bool.and_true,
    Bool.or_comm, Bool.or_comm (widen w f.b2).msb, Bool.or_assoc]

/-- Settles O10: the three ranges of `LH`, with the signed fill. -/
theorem leftHorizontalExtraction : Obligations.LeftHorizontalExtraction := by
  intro f s
  refine ⟨lhValue .signed f, rfl, rfl, rfl, lhValue_low _ f, ?middle, ?top, toNat_and_axisMask_le _⟩
  case middle => rw [lhValue_middle, widenFill_signed]
  case top =>
    rw [lhValue_top, msb_widen_signed, msb_widen_signed]
    rfl

end Sys2Proof.Machine
end

section
/-!
The switches (R115, R116): bits 7:6 and 5:4 of byte 5, whatever the widening, since the masks keep four bits of the byte.
-/

namespace Sys2Proof.Machine

theorem setWidth_lsr16_and_12 (v : Half) : (lsr16 (v &&& 0x000C#16) 2).setWidth 2 = v.extractLsb' 2 2 := by
  refine BitVec.eq_of_getLsbD_eq fun i hi => ?_
  have mask : ∀ i < 2, (0x000C#16).getLsbD (2 + i) = true := by decide
  rw [BitVec.getLsbD_setWidth, lsr16, BitVec.getLsbD_ushiftRight, BitVec.getLsbD_and, mask i hi,
    BitVec.getLsbD_extractLsb', Bool.and_true]

theorem setWidth_and_3 (v : Half) : (v &&& 0x0003#16).setWidth 2 = v.extractLsb' 0 2 := by
  refine BitVec.eq_of_getLsbD_eq fun i hi => ?_
  have mask : ∀ i < 2, (0x0003#16).getLsbD i = true := by decide
  rw [BitVec.getLsbD_setWidth, BitVec.getLsbD_and, mask i hi, BitVec.getLsbD_extractLsb', Bool.and_true, Nat.zero_add]

theorem slValue_eq (w : Config.Widening) (f : RcFrame) : slValue w f = f.b5.extractLsb' 6 2 := by
  rw [slValue, setWidth_lsr16_and_12, extractLsb'_asr16 (by decide), extractLsb'_widen_low (by decide)]

theorem srValue_eq (w : Config.Widening) (f : RcFrame) : srValue w f = f.b5.extractLsb' 4 2 := by
  rw [srValue, setWidth_and_3, extractLsb'_asr16 (by decide), extractLsb'_widen_low (by decide)]

theorem exec_rcSl (f : RcFrame) (s : State) :
    exec (.rcSl f) s = .next (s.emit { field := some (.sl (slValue byteWidening f)) }) := rfl

theorem exec_rcSr (f : RcFrame) (s : State) :
    exec (.rcSr f) s = .next (s.emit { field := some (.sr (srValue byteWidening f)) }) := rfl

/-- Settles O12: the closed forms hold for any widening, this hardware's included. -/
theorem switchExtractions : Obligations.SwitchExtractions := by
  intro f s
  refine ⟨?sl, ?sr, (slValue_eq _ f).symm, (srValue_eq _ f).symm, fun w => (slValue_eq w f).symm,
    fun w => (srValue_eq w f).symm⟩
  case sl =>
    rw [exec_rcSl, slValue_eq]
    rfl
  case sr =>
    rw [exec_rcSr, srValue_eq]
    rfl

end Sys2Proof.Machine
end

section
/-!
The unsigned reading (R82, R127): the axis of two neighbouring bytes is their plain range, so each field is a contiguous
range of the frame integer.
-/

namespace Sys2Proof.Machine

/-- The unsigned reading of the axis of two neighbouring bytes, the lower one `a` giving its top `k` bits. -/
def unsignedAxis (k : Nat) (a b : Byte) : Half := (asr16 (zext16 a) (8 - k) ||| shl16 (zext16 b) k) &&& Config.axisMask

theorem rhValue_unsigned (f : RcFrame) : rhValue .unsigned f = unsignedAxis 8 f.b0 f.b1 := by
  rw [unsignedAxis, asr16, BitVec.sshiftRight_zero]
  rfl

theorem rvValue_unsigned (f : RcFrame) : rvValue .unsigned f = unsignedAxis 5 f.b1 f.b2 := rfl

theorem lvValue_unsigned (f : RcFrame) : lvValue .unsigned f = unsignedAxis 7 f.b4 f.b5 := rfl

theorem toNat_asr16_zext16 (b : Byte) (k : Nat) : (asr16 (zext16 b) k).toNat = b.toNat / 2 ^ k := by
  have positive : (zext16 b).msb = false := msb_widen_unsigned b
  rw [asr16, BitVec.sshiftRight_eq_of_msb_false positive, BitVec.toNat_ushiftRight, toNat_zext16,
    Nat.shiftRight_eq_div_pow]

theorem toNat_shl16_zext16 {k : Nat} (hk : k ≤ 8) (b : Byte) : (shl16 (zext16 b) k).toNat = 2 ^ k * b.toNat := by
  have bound : b.toNat * 2 ^ k < 2 ^ 16 :=
    calc b.toNat * 2 ^ k < 2 ^ 8 * 2 ^ k := Nat.mul_lt_mul_of_pos_right b.isLt (Nat.two_pow_pos k)
      _ ≤ 2 ^ 8 * 2 ^ 8 := Nat.mul_le_mul_left _ (Nat.pow_le_pow_right (by decide) hk)
  rw [toNat_shl16, toNat_zext16, Nat.mod_eq_of_lt bound, Nat.mul_comm]

/-- The two pieces of the axis do not overlap, so their or is a sum. -/
theorem toNat_unsignedAxis {k : Nat} (hk : k ≤ 8) (a b : Byte) :
    (unsignedAxis k a b).toNat = (a.toNat / 2 ^ (8 - k) + 2 ^ k * b.toNat) % 2048 := by
  have lower : (asr16 (zext16 a) (8 - k)).toNat < 2 ^ k := by
    rw [toNat_asr16_zext16]
    refine Nat.div_lt_of_lt_mul ?_
    rw [← Nat.pow_add, Nat.sub_add_cancel hk]
    exact a.isLt
  have upper := toNat_shl16_zext16 hk b
  rw [unsignedAxis, toNat_and_axisMask, toNat_or_of_lt_of_dvd lower (Dvd.intro _ upper.symm), upper,
    toNat_asr16_zext16]

/-- `LH` is two bits of byte 2, byte 3, and bit 0 of byte 4. -/
theorem toNat_lhValue_unsigned (f : RcFrame) :
    (lhValue .unsigned f).toNat = (f.b2.toNat / 64 + 4 * f.b3.toNat + 1024 * f.b4.toNat) % 2048 := by
  have h2 := f.b2.isLt
  have h3 := f.b3.isLt
  have lower : (asr16 (zext16 f.b2) 6).toNat = f.b2.toNat / 64 := toNat_asr16_zext16 f.b2 6
  have middle : (shl16 (zext16 f.b3) 2).toNat = 4 * f.b3.toNat := toNat_shl16_zext16 (by decide) f.b3
  have upper : (shl16 (zext16 f.b4) 10).toNat = 1024 * (f.b4.toNat % 64) := by
    rw [toNat_shl16, toNat_zext16]
    omega
  have both : (asr16 (zext16 f.b2) 6 ||| shl16 (zext16 f.b3) 2).toNat = f.b2.toNat / 64 + 4 * f.b3.toNat := by
    rw [toNat_or_of_lt_of_dvd (k := 2) (by omega) (Dvd.intro _ middle.symm), lower, middle]
  show ((asr16 (zext16 f.b2) 6 ||| shl16 (zext16 f.b3) 2 ||| shl16 (zext16 f.b4) 10) &&& Config.axisMask).toNat = _
  rw [toNat_and_axisMask, toNat_or_of_lt_of_dvd (k := 10) (by omega) (Dvd.intro _ upper.symm), both, upper]
  omega

/-- The frame integer of a frame: the six channel bytes, then the rest. -/
theorem frameInteger_toBytes (f : RcFrame) : ∃ rest, frameInteger f.toBytes = f.b0.toNat + 256 * (f.b1.toNat +
    256 * (f.b2.toNat + 256 * (f.b3.toNat + 256 * (f.b4.toNat + 256 * (f.b5.toNat + 256 * rest))))) :=
  ⟨_, rfl⟩

/-- Settles O17: each range of the frame integer in the numbers of the bytes it lies in. -/
theorem unsignedReadingIsTheFrameRange : Obligations.UnsignedReadingIsTheFrameRange := by
  intro f
  obtain ⟨rest, hF⟩ := frameInteger_toBytes f
  have h0 := f.b0.isLt
  have h1 := f.b1.isLt
  have h2 := f.b2.isLt
  have h3 := f.b3.isLt
  have h4 := f.b4.isLt
  have h5 := f.b5.isLt
  rw [hF]
  refine ⟨?rh, ?rv, ?lh, ?lv, ?sr, ?sl⟩
  case rh =>
    rw [rhValue_unsigned, toNat_unsignedAxis (by decide)]
    omega
  case rv =>
    rw [rvValue_unsigned, toNat_unsignedAxis (by decide)]
    omega
  case lh =>
    rw [toNat_lhValue_unsigned]
    omega
  case lv =>
    rw [lvValue_unsigned, toNat_unsignedAxis (by decide)]
    omega
  case sr =>
    rw [srValue_eq, BitVec.extractLsb'_toNat, Nat.shiftRight_eq_div_pow]
    omega
  case sl =>
    rw [slValue_eq, BitVec.extractLsb'_toNat, Nat.shiftRight_eq_div_pow]
    omega

end Sys2Proof.Machine
end

section
/-!
Where the two readings agree (R127): range by range, where the sign copies change nothing.
-/

namespace Sys2Proof.Machine

theorem unsignedAxis_low {k : Nat} (hk : k ≤ 8) (a b : Byte) :
    (unsignedAxis k a b).extractLsb' 0 k = a.extractLsb' (8 - k) k := by
  rw [unsignedAxis, extractLsb'_and_axisMask (by omega), BitVec.extractLsb'_or, extractLsb'_asr16 (by omega),
    extractLsb'_shl16_below (by omega), BitVec.or_zero, Nat.add_zero]
  exact extractLsb'_widen_low (by omega) .unsigned a

theorem unsignedAxis_high {k n : Nat} (hk : k ≤ 8) (hn : n ≤ 8) (h : k + n ≤ 11) (a b : Byte) :
    (unsignedAxis k a b).extractLsb' k n = b.extractLsb' 0 n := by
  have fill : (zext16 a).extractLsb' (8 - k + k) n = 0#n :=
    (extractLsb'_widen_high (by omega) (by omega) .unsigned a).trans (widenFill_unsigned n a)
  rw [unsignedAxis, extractLsb'_and_axisMask h, BitVec.extractLsb'_or, extractLsb'_asr16 (by omega), fill,
    extractLsb'_shl16_at (by omega), BitVec.zero_or]
  exact extractLsb'_widen_low (by omega) .unsigned b

/-- The readings of the axis of two neighbouring bytes differ exactly where sign copies of the lower byte change the
range of the upper one. -/
theorem twoByteAxis_eq_unsignedAxis_iff {k n : Nat} (hk : k ≤ 8) (hn : n ≤ 8) (h : k + n = 11) (a b : Byte) :
    twoByteAxis k a b = unsignedAxis k a b ↔ a.msb = false ∨ b.extractLsb' 0 n = BitVec.allOnes n := by
  rw [twoByteAxis, unsignedAxis, and_axisMask_eq_iff, ← twoByteAxis, ← unsignedAxis, ← h, extractLsb'_add_eq_iff,
    Nat.zero_add, twoByteAxis_low hk, unsignedAxis_low hk, twoByteAxis_high hk hn (by omega),
    unsignedAxis_high hk hn (by omega), or_signFill_eq_left_iff]
  exact and_iff_right rfl

/-- The readings of `LH` differ exactly in byte 3's range and in bit 10. -/
theorem lhValue_signed_eq_unsigned_iff (f : RcFrame) :
    lhValue .signed f = lhValue .unsigned f ↔
      (f.b2.msb = false ∨ f.b3 = 0xFF#8) ∧ (f.b2.msb = false ∧ f.b3.msb = false ∨ f.b4.getLsbD 0 = true) := by
  have ranges : lhValue .signed f = lhValue .unsigned f ↔
      (lhValue .signed f).extractLsb' 0 (2 + 8 + 1) = (lhValue .unsigned f).extractLsb' 0 (2 + 8 + 1) :=
    and_axisMask_eq_iff _ _
  have middle : (lhValue .signed f).extractLsb' 2 8 = (lhValue .unsigned f).extractLsb' 2 8 ↔
      f.b2.msb = false ∨ f.b3 = 0xFF#8 := by
    rw [lhValue_middle, lhValue_middle, widenFill_signed, widenFill_unsigned, BitVec.or_zero]
    exact or_signFill_eq_left_iff f.b3 f.b2
  have top : (lhValue .signed f).extractLsb' 10 1 = (lhValue .unsigned f).extractLsb' 10 1 ↔
      f.b2.msb = false ∧ f.b3.msb = false ∨ f.b4.getLsbD 0 = true := by
    rw [extractLsb'_one_eq_iff, lhValue_top, lhValue_top, msb_widen_signed, msb_widen_signed, msb_widen_unsigned,
      msb_widen_unsigned]
    cases f.b4.getLsbD 0 <;> simp [and_comm]
  rw [ranges, extractLsb'_add_eq_iff, extractLsb'_add_eq_iff, lhValue_low, lhValue_low, Nat.zero_add, Nat.zero_add,
    middle, top, and_iff_right rfl]

theorem slValue_signed_eq_unsigned (f : RcFrame) : slValue .signed f = slValue .unsigned f := by
  rw [slValue_eq, slValue_eq]

theorem srValue_signed_eq_unsigned (f : RcFrame) : srValue .signed f = srValue .unsigned f := by
  rw [srValue_eq, srValue_eq]

/-- Settles O18: the axes by their ranges, the switches always, and the whole record where no channel byte below byte 5
has its sign set. -/
theorem wideningReadingsAgree : Obligations.WideningReadingsAgree := by
  intro f
  have rh := twoByteAxis_eq_unsignedAxis_iff (k := 8) (n := 3) (by decide) (by decide) rfl f.b0 f.b1
  have rv := twoByteAxis_eq_unsignedAxis_iff (k := 5) (n := 6) (by decide) (by decide) rfl f.b1 f.b2
  have lv := twoByteAxis_eq_unsignedAxis_iff (k := 7) (n := 4) (by decide) (by decide) rfl f.b4 f.b5
  have lh := lhValue_signed_eq_unsigned_iff f
  rw [← rhValue_signed, ← rhValue_unsigned] at rh
  rw [← rvValue_signed, ← rvValue_unsigned] at rv
  rw [← lvValue_signed, ← lvValue_unsigned] at lv
  refine ⟨rh, rv, lv, lh, slValue_signed_eq_unsigned f, srValue_signed_eq_unsigned f, fun h0 h1 h2 h3 h4 => ?record⟩
  have clear : ∀ b : Byte, b.toNat < 0x80 → b.msb = false := fun b hb => by
    rw [BitVec.msb_eq_false_iff_two_mul_lt]
    omega
  rw [channelState, channelState, rh.2 (.inl (clear _ h0)), rv.2 (.inl (clear _ h1)), lv.2 (.inl (clear _ h4)),
    lh.2 ⟨.inl (clear _ h2), .inl ⟨clear _ h2, clear _ h3⟩⟩, slValue_signed_eq_unsigned, srValue_signed_eq_unsigned]

end Sys2Proof.Machine
end

section
/-!
The width of the intermediate (R129): at every width of 16 or more the formulas are built of patterns with the same low
sixteen bits, and the masks keep only those.
-/

namespace Sys2Proof.Machine

/-- A pattern of any width and a 16-bit one have the same low sixteen bits. -/
def SameLowBits {n : Nat} (x : BitVec n) (y : Half) : Prop := ∀ i < 16, x.getLsbD i = y.getLsbD i

theorem SameLowBits.or {n : Nat} {x x' : BitVec n} {y y' : Half} (h : SameLowBits x y) (h' : SameLowBits x' y') :
    SameLowBits (x ||| x') (y ||| y') := fun i hi => by
  rw [BitVec.getLsbD_or, BitVec.getLsbD_or, h i hi, h' i hi]

theorem SameLowBits.shl {n : Nat} (hn : 16 ≤ n) {x : BitVec n} {y : Half} (h : SameLowBits x y) (k : Nat) :
    SameLowBits (x <<< k) (shl16 y k) := fun i hi => by
  rw [shl16, BitVec.getLsbD_shiftLeft, BitVec.getLsbD_shiftLeft, decide_eq_true hi,
    decide_eq_true (hi.trans_le hn), h (i - k) (by omega)]

theorem sameLowBits_signExtend {n : Nat} (hn : 16 ≤ n) (b : Byte) : SameLowBits (b.signExtend n) (sext16 b) :=
  fun i hi => by
    rw [sext16, BitVec.getLsbD_signExtend, BitVec.getLsbD_signExtend, decide_eq_true hi,
      decide_eq_true (hi.trans_le hn)]

/-- A sign-extended byte shifted right: bit `i` is bit `k + i` of the byte, or its sign (D2). -/
theorem getLsbD_sshiftRight_signExtend {n k i : Nat} (hn : 16 ≤ n) (hi : i < 16) (b : Byte) :
    ((b.signExtend n).sshiftRight k).getLsbD i = if k + i < 8 then b.getLsbD (k + i) else b.msb := by
  have sign : (b.signExtend n).msb = b.msb := by
    rw [BitVec.msb_signExtend, decide_eq_true (by omega : 0 < n), if_neg (by omega), Bool.true_and]
  rw [BitVec.getLsbD_sshiftRight, sign, decide_eq_false (by omega), Bool.not_false, Bool.true_and]
  split
  · rw [BitVec.getLsbD_signExtend, decide_eq_true ‹_›, Bool.true_and]
  · rw [if_neg (by omega)]

theorem sameLowBits_asr {n : Nat} (hn : 16 ≤ n) (b : Byte) (k : Nat) :
    SameLowBits ((b.signExtend n).sshiftRight k) (asr16 (sext16 b) k) := fun _ hi =>
  (getLsbD_sshiftRight_signExtend hn hi b).trans (getLsbD_sshiftRight_signExtend (Nat.le_refl 16) hi b).symm

/-- Under a mask of sixteen bits the width does not matter. -/
theorem SameLowBits.toNat_and {n m : Nat} (hn : 16 ≤ n) (hm : m < 2 ^ 16) {x : BitVec n} {y : Half}
    (h : SameLowBits x y) : (x &&& BitVec.ofNat n m).toNat = (y &&& BitVec.ofNat 16 m).toNat := by
  have hmn : m < 2 ^ n := hm.trans_le (Nat.pow_le_pow_right (by decide) hn)
  refine Nat.eq_of_testBit_eq fun i => ?_
  rw [BitVec.toNat_and, BitVec.toNat_and, BitVec.toNat_ofNat, BitVec.toNat_ofNat, Nat.mod_eq_of_lt hm,
    Nat.mod_eq_of_lt hmn, Nat.testBit_and, Nat.testBit_and]
  by_cases hi : i < 16
  · exact congrArg (· && m.testBit i) (h i hi)
  · have above : m.testBit i = false :=
      Nat.testBit_lt_two_pow (hm.trans_le (Nat.pow_le_pow_right (by decide) (by omega)))
    rw [above, Bool.and_false, Bool.and_false]

section
variable {n : Nat} (hn : 16 ≤ n) (f : RcFrame)
include hn

theorem toNat_wideRh : (wideRh n f).toNat = (rhValue .signed f).toNat :=
  ((sameLowBits_signExtend hn f.b0).or ((sameLowBits_signExtend hn f.b1).shl hn 8)).toNat_and hn (by decide)

theorem toNat_wideRv : (wideRv n f).toNat = (rvValue .signed f).toNat :=
  ((sameLowBits_asr hn f.b1 3).or ((sameLowBits_signExtend hn f.b2).shl hn 5)).toNat_and hn (by decide)

theorem toNat_wideLh : (wideLh n f).toNat = (lhValue .signed f).toNat :=
  (((sameLowBits_asr hn f.b2 6).or ((sameLowBits_signExtend hn f.b3).shl hn 2)).or
    ((sameLowBits_signExtend hn f.b4).shl hn 10)).toNat_and hn (by decide)

theorem toNat_wideLv : (wideLv n f).toNat = (lvValue .signed f).toNat :=
  ((sameLowBits_asr hn f.b4 1).or ((sameLowBits_signExtend hn f.b5).shl hn 7)).toNat_and hn (by decide)

/-- The masked and shifted value fits the two bits of the switch. -/
theorem toNat_wideSl : (wideSl n f).toNat = (slValue .signed f).toNat := by
  have masked := (sameLowBits_asr hn f.b5 4).toNat_and hn (m := 0x0C) (by decide)
  have small : (asr16 (sext16 f.b5) 4 &&& 0x000C#16).toNat ≤ 12 := by
    rw [BitVec.toNat_and]
    exact Nat.and_le_right
  rw [wideSl, BitVec.toNat_ushiftRight, masked, slValue, BitVec.toNat_setWidth, toNat_lsr16,
    Nat.shiftRight_eq_div_pow]
  show _ = (asr16 (sext16 f.b5) 4 &&& 0x000C#16).toNat / 2 ^ 2 % 2 ^ 2
  omega

theorem toNat_wideSr : (wideSr n f).toNat = (srValue .signed f).toNat := by
  have masked := (sameLowBits_asr hn f.b5 4).toNat_and hn (m := 0x03) (by decide)
  have small : (asr16 (sext16 f.b5) 4 &&& 0x0003#16).toNat ≤ 3 := by
    rw [BitVec.toNat_and]
    exact Nat.and_le_right
  rw [wideSr, masked, srValue, BitVec.toNat_setWidth]
  show _ = (asr16 (sext16 f.b5) 4 &&& 0x0003#16).toNat % 2 ^ 2
  omega

end

/-- Without the sign copies of byte 2, bit 10 of `LH` is that of bytes 3 and 4 alone. -/
theorem getLsbD_logicalLh (f : RcFrame) :
    ((lsr16 (sext16 f.b2) 6 ||| shl16 (sext16 f.b3) 2 ||| shl16 (sext16 f.b4) 10) &&& 0x07FF#16).getLsbD 10 =
      (f.b3.msb || f.b4.getLsbD 0) := by
  have lower : (lsr16 (sext16 f.b2) 6).getLsbD 10 = false := by
    rw [lsr16, BitVec.getLsbD_ushiftRight]
    exact BitVec.getLsbD_of_ge _ _ (by decide)
  have middle : (shl16 (sext16 f.b3) 2).getLsbD 10 = f.b3.msb :=
    (getLsbD_shl16_widen (by decide) (by decide) .signed f.b3).trans (msb_widen_signed f.b3)
  have upper : (shl16 (sext16 f.b4) 10).getLsbD 10 = f.b4.getLsbD 0 :=
    getLsbD_shl16_widen (by decide) (by decide) .signed f.b4
  have mask : (0x07FF#16).getLsbD 10 = true := by decide
  rw [BitVec.getLsbD_and, BitVec.getLsbD_or, BitVec.getLsbD_or, lower, middle, upper, mask, Bool.and_true,
    Bool.false_or]

/-- Settles O19: formula by formula; the logical shift loses the sign of byte 2 in bit 10. -/
theorem intermediateWidthDoesNotMatter : Obligations.IntermediateWidthDoesNotMatter := by
  intro f
  refine ⟨fun n hn => ⟨toNat_wideRh hn f, toNat_wideRv hn f, toNat_wideLh hn f, toNat_wideLv hn f, toNat_wideSl hn f,
    toNat_wideSr hn f⟩, fun h2 h3 h4 same => ?logical⟩
  have bit := congrArg (·.getLsbD 10) same
  simp only [getLsbD_logicalLh, lhValue_top, msb_widen_signed, h2, h3, h4] at bit
  cases bit

end Sys2Proof.Machine
end
